-- ==== Sys2Proof/Word.lean ====
section
/-! DEFINITION. The word types of the machine (spec 00_scope.md R4 to R6): bytes, 16-bit words,
12-bit addresses and register numbers. All values are unsigned. -/

namespace Sys2Proof

/-- 8 bits: a V register, DT, ST, a byte of memory (R4 `XLEN`). -/
abbrev Byte := BitVec 8

/-- 16 bits: PC, I, a stack slot, an instruction word (R4 `PC_BITS`, `I_BITS`, `ILEN`). -/
abbrev Word := BitVec 16

/-- The 12-bit address field `nnn` of an instruction (R61, R63). -/
abbrev Addr12 := BitVec 12

/-- A register number 0..15, naming one of V0..VF (R11). -/
abbrev Reg := Fin 16

/-- VF, the flag register: an ordinary register of the file (R12). -/
abbrev vF : Reg := 15

end Sys2Proof
end

