-- ==== Sys2Proof/Syntax.lean ====
section
/-! DEFINITION. The 34 instructions of spec/opcode_table.json (30_encoding.md R65), one constructor a row.
Operands are already decoded: `x`, `y` register numbers, `kk` an immediate byte, `nnn` a 12-bit address, `n` a
count 0..15 (R61, R63). The don't-care fields of R67 are no operands and are not kept (log 6). -/

namespace Sys2Proof

inductive Instr where
  /-- `CLS` 00E0 (R130) -/
  | cls
  /-- `RET` 00EE (R82) -/
  | ret
  /-- `JP nnn` 1nnn (R83) -/
  | jp (nnn : Addr12)
  /-- `CALL nnn` 2nnn (R84) -/
  | call (nnn : Addr12)
  /-- `SE Vx, kk` 3xkk (R90) -/
  | seImm (x : Reg) (kk : Byte)
  /-- `SNE Vx, kk` 4xkk (R91) -/
  | sneImm (x : Reg) (kk : Byte)
  /-- `SE Vx, Vy` 5xy0 (R92) -/
  | seReg (x y : Reg)
  /-- `LD Vx, kk` 6xkk (R101) -/
  | ldImm (x : Reg) (kk : Byte)
  /-- `ADD Vx, kk` 7xkk (R102) -/
  | addImm (x : Reg) (kk : Byte)
  /-- `LD Vx, Vy` 8xy0 (R103) -/
  | ldReg (x y : Reg)
  /-- `OR Vx, Vy` 8xy1 (R104) -/
  | orReg (x y : Reg)
  /-- `AND Vx, Vy` 8xy2 (R105) -/
  | andReg (x y : Reg)
  /-- `XOR Vx, Vy` 8xy3 (R106) -/
  | xorReg (x y : Reg)
  /-- `ADD Vx, Vy` 8xy4 (R107) -/
  | addReg (x y : Reg)
  /-- `SUB Vx, Vy` 8xy5 (R108) -/
  | subReg (x y : Reg)
  /-- `SHR Vx` 8xy6 (R109) -/
  | shr (x : Reg)
  /-- `SUBN Vx, Vy` 8xy7 (R110) -/
  | subnReg (x y : Reg)
  /-- `SHL Vx` 8xyE (R111) -/
  | shl (x : Reg)
  /-- `SNE Vx, Vy` 9xy0 (R93) -/
  | sneReg (x y : Reg)
  /-- `LD I, nnn` Annn (R120) -/
  | ldI (nnn : Addr12)
  /-- `JP V0, nnn` Bnnn (R85) -/
  | jpV0 (nnn : Addr12)
  /-- `RND Vx, kk` Cxkk (R112) -/
  | rnd (x : Reg) (kk : Byte)
  /-- `DRW Vx, Vy, n` Dxyn (R131) -/
  | drw (x y : Reg) (n : Fin 16)
  /-- `SKP Vx` Ex9E (R94) -/
  | skp (x : Reg)
  /-- `SKNP Vx` ExA1 (R95) -/
  | sknp (x : Reg)
  /-- `LD Vx, DT` Fx07 (R140) -/
  | ldFromDt (x : Reg)
  /-- `LD Vx, K` Fx0A (R141) -/
  | ldKey (x : Reg)
  /-- `LD DT, Vx` Fx15 (R142) -/
  | ldDt (x : Reg)
  /-- `LD ST, Vx` Fx18 (R143) -/
  | ldSt (x : Reg)
  /-- `ADD I, Vx` Fx1E (R121) -/
  | addI (x : Reg)
  /-- `LD F, Vx` Fx29 (R122) -/
  | ldFont (x : Reg)
  /-- `LD B, Vx` Fx33 (R123) -/
  | ldBcd (x : Reg)
  /-- `LD [I], Vx` Fx55 (R124) -/
  | storeRegs (x : Reg)
  /-- `LD Vx, [I]` Fx65 (R125) -/
  | loadRegs (x : Reg)
  deriving DecidableEq, Repr

end Sys2Proof
end

