-- ==== Sys2Proof/WellFormed.lean ====
section
/-! DEFINITION. Which operands an instruction may have (spec 30_encoding.md R61, R63). Operands as plain
numbers, the way an assembler reads them (R69), are checked field by field; the types of `Instr` admit only operands
that pass, because every value a field can hold is legal (R63: "all sixteen values are legal"). -/

namespace Sys2Proof

/-- The operand fields of R61 as plain numbers; a field an instruction's format does not name is 0. -/
structure OperandFields where
  x : Nat := 0
  y : Nat := 0
  n : Nat := 0
  kk : Nat := 0
  nnn : Nat := 0
  deriving DecidableEq, Repr

/-- The widths of R61: `x`, `y` and `n` have 4 bits, `kk` 8, `nnn` 12. -/
def OperandFields.wellFormed (f : OperandFields) : Bool :=
  decide (f.x < 16) && decide (f.y < 16) && decide (f.n < 16) && decide (f.kk < 256) && decide (f.nnn < 4096)

/-- The operand fields of an instruction, as numbers. -/
def Instr.operands : Instr → OperandFields
  | .cls | .ret => {}
  | .jp nnn | .call nnn | .ldI nnn | .jpV0 nnn => { nnn := nnn.toNat }
  | .seImm x kk | .sneImm x kk | .ldImm x kk | .addImm x kk | .rnd x kk => { x := x, kk := kk.toNat }
  | .seReg x y | .sneReg x y | .ldReg x y | .orReg x y | .andReg x y | .xorReg x y | .addReg x y | .subReg x y
  | .subnReg x y => { x := x, y := y }
  | .shr x | .shl x | .skp x | .sknp x | .ldFromDt x | .ldKey x | .ldDt x | .ldSt x | .addI x | .ldFont x | .ldBcd x
  | .storeRegs x | .loadRegs x => { x := x }
  | .drw x y n => { x := x, y := y, n := n }

/-- An instruction is well formed when its operands fit their fields. -/
def Instr.wellFormed (i : Instr) : Bool := i.operands.wellFormed

end Sys2Proof
end

