-- ==== Sys2Proof/Decode.lean ====
section
/-! DEFINITION. The decoder, total on any bytes and rejecting by name, and after it the encoder (spec
30_encoding.md R60 to R67, spec/opcode_table.json). -/

namespace Sys2Proof

/-! ### The fields of an instruction word (R61) -/

/-- `op`, bits 15:12: the major class. -/
def fieldOp (w : Word) : BitVec 4 := w.extractLsb' 12 4

/-- `x`, bits 11:8. -/
def fieldX (w : Word) : Reg := (w.extractLsb' 8 4).toFin

/-- `y`, bits 7:4. -/
def fieldY (w : Word) : Reg := (w.extractLsb' 4 4).toFin

/-- `n`, bits 3:0. -/
def fieldN (w : Word) : Fin 16 := (w.extractLsb' 0 4).toFin

/-- `kk`, bits 7:0. -/
def fieldKk (w : Word) : Byte := w.extractLsb' 0 8

/-- `nnn`, bits 11:0. -/
def fieldNnn (w : Word) : Addr12 := w.extractLsb' 0 12

/-! ### Decoding in two levels (R64) -/

/-- Why the decoder gives no instruction. The first is about the byte string; the others name the
overloaded class in which the word is unrecognised (R66), which the machine runs as a no-op. -/
inductive Reject where
  /-- fewer than two bytes were given (R60) -/
  | tooShort
  /-- a `0nnn` other than 00E0 and 00EE -/
  | unrecognised0
  /-- an `8xyn` with `n` in 8..D or F -/
  | unrecognised8
  /-- an `Exkk` with `kk` neither 9E nor A1 -/
  | unrecognisedE
  /-- an `Fxkk` with `kk` not one of the nine of R65 -/
  | unrecognisedF
  deriving DecidableEq, Repr

/-- Class 0x0: the discriminant is the whole low 12 bits (R64). -/
def decodeClass0 (w : Word) : Except Reject Instr :=
  match fieldNnn w with
  | 0x0E0#12 => .ok .cls
  | 0x0EE#12 => .ok .ret
  | _ => .error .unrecognised0

/-- Class 0x8: the discriminant is the low nibble (R64). `y` is ignored by SHR and SHL (R67). -/
def decodeClass8 (w : Word) : Except Reject Instr :=
  match (fieldN w).val with
  | 0x0 => .ok (.ldReg (fieldX w) (fieldY w))
  | 0x1 => .ok (.orReg (fieldX w) (fieldY w))
  | 0x2 => .ok (.andReg (fieldX w) (fieldY w))
  | 0x3 => .ok (.xorReg (fieldX w) (fieldY w))
  | 0x4 => .ok (.addReg (fieldX w) (fieldY w))
  | 0x5 => .ok (.subReg (fieldX w) (fieldY w))
  | 0x6 => .ok (.shr (fieldX w))
  | 0x7 => .ok (.subnReg (fieldX w) (fieldY w))
  | 0xE => .ok (.shl (fieldX w))
  | _ => .error .unrecognised8

/-- Class 0xE: the discriminant is the low byte (R64). -/
def decodeClassE (w : Word) : Except Reject Instr :=
  match fieldKk w with
  | 0x9E#8 => .ok (.skp (fieldX w))
  | 0xA1#8 => .ok (.sknp (fieldX w))
  | _ => .error .unrecognisedE

/-- Class 0xF: the discriminant is the low byte (R64). -/
def decodeClassF (w : Word) : Except Reject Instr :=
  match fieldKk w with
  | 0x07#8 => .ok (.ldFromDt (fieldX w))
  | 0x0A#8 => .ok (.ldKey (fieldX w))
  | 0x15#8 => .ok (.ldDt (fieldX w))
  | 0x18#8 => .ok (.ldSt (fieldX w))
  | 0x1E#8 => .ok (.addI (fieldX w))
  | 0x29#8 => .ok (.ldFont (fieldX w))
  | 0x33#8 => .ok (.ldBcd (fieldX w))
  | 0x55#8 => .ok (.storeRegs (fieldX w))
  | 0x65#8 => .ok (.loadRegs (fieldX w))
  | _ => .error .unrecognisedF

/-- First on the major class, then in the four overloaded classes on the discriminant (R64). The low nibble
of classes 0x5 and 0x9 is not examined (R67). The last arm is class 0xF, the only value left. -/
def decodeWord (w : Word) : Except Reject Instr :=
  match fieldOp w with
  | 0x0#4 => decodeClass0 w
  | 0x1#4 => .ok (.jp (fieldNnn w))
  | 0x2#4 => .ok (.call (fieldNnn w))
  | 0x3#4 => .ok (.seImm (fieldX w) (fieldKk w))
  | 0x4#4 => .ok (.sneImm (fieldX w) (fieldKk w))
  | 0x5#4 => .ok (.seReg (fieldX w) (fieldY w))
  | 0x6#4 => .ok (.ldImm (fieldX w) (fieldKk w))
  | 0x7#4 => .ok (.addImm (fieldX w) (fieldKk w))
  | 0x8#4 => decodeClass8 w
  | 0x9#4 => .ok (.sneReg (fieldX w) (fieldY w))
  | 0xA#4 => .ok (.ldI (fieldNnn w))
  | 0xB#4 => .ok (.jpV0 (fieldNnn w))
  | 0xC#4 => .ok (.rnd (fieldX w) (fieldKk w))
  | 0xD#4 => .ok (.drw (fieldX w) (fieldY w) (fieldN w))
  | 0xE#4 => decodeClassE w
  | _ => decodeClassF w

/-- The word two bytes form, the byte at the lower address high (20_memory.md R44). -/
def wordOfBytes (hi lo : Byte) : Word := hi ++ lo

/-- Decodes the first two bytes and gives back the rest (R60). -/
def decode : List Byte → Except Reject (Instr × List Byte)
  | hi :: lo :: rest =>
    match decodeWord (wordOfBytes hi lo) with
    | .ok i => .ok (i, rest)
    | .error e => .error e
  | _ => .error .tooShort

/-! ### Encoding, from the same table (R62, R65) -/

/-- Format NNN. -/
def wordNnn (op : BitVec 4) (nnn : Addr12) : Word := op ++ nnn

/-- Format XKK, and format X with `kk` the sub-opcode. -/
def wordXkk (op : BitVec 4) (x : Reg) (kk : Byte) : Word := op ++ BitVec.ofNat 4 x ++ kk

/-- Formats XY and XYN. -/
def wordXyn (op : BitVec 4) (x y n : Fin 16) : Word :=
  op ++ BitVec.ofNat 4 x ++ BitVec.ofNat 4 y ++ BitVec.ofNat 4 n

/-- The word of an instruction, with the don't-care fields of R67 written as 0 (log 6). -/
def encodeWord : Instr → Word
  | .cls => 0x00E0
  | .ret => 0x00EE
  | .jp nnn => wordNnn 0x1 nnn
  | .call nnn => wordNnn 0x2 nnn
  | .seImm x kk => wordXkk 0x3 x kk
  | .sneImm x kk => wordXkk 0x4 x kk
  | .seReg x y => wordXyn 0x5 x y 0x0
  | .ldImm x kk => wordXkk 0x6 x kk
  | .addImm x kk => wordXkk 0x7 x kk
  | .ldReg x y => wordXyn 0x8 x y 0x0
  | .orReg x y => wordXyn 0x8 x y 0x1
  | .andReg x y => wordXyn 0x8 x y 0x2
  | .xorReg x y => wordXyn 0x8 x y 0x3
  | .addReg x y => wordXyn 0x8 x y 0x4
  | .subReg x y => wordXyn 0x8 x y 0x5
  | .shr x => wordXyn 0x8 x 0x0 0x6
  | .subnReg x y => wordXyn 0x8 x y 0x7
  | .shl x => wordXyn 0x8 x 0x0 0xE
  | .sneReg x y => wordXyn 0x9 x y 0x0
  | .ldI nnn => wordNnn 0xA nnn
  | .jpV0 nnn => wordNnn 0xB nnn
  | .rnd x kk => wordXkk 0xC x kk
  | .drw x y n => wordXyn 0xD x y n
  | .skp x => wordXkk 0xE x 0x9E
  | .sknp x => wordXkk 0xE x 0xA1
  | .ldFromDt x => wordXkk 0xF x 0x07
  | .ldKey x => wordXkk 0xF x 0x0A
  | .ldDt x => wordXkk 0xF x 0x15
  | .ldSt x => wordXkk 0xF x 0x18
  | .addI x => wordXkk 0xF x 0x1E
  | .ldFont x => wordXkk 0xF x 0x29
  | .ldBcd x => wordXkk 0xF x 0x33
  | .storeRegs x => wordXkk 0xF x 0x55
  | .loadRegs x => wordXkk 0xF x 0x65

/-- The two bytes of a word, the high byte first (20_memory.md R44). -/
def bytesOfWord (w : Word) : List Byte := [w.extractLsb' 8 8, w.extractLsb' 0 8]

/-- The two bytes of an instruction, as they lie in memory. -/
def encode (i : Instr) : List Byte := bytesOfWord (encodeWord i)

/-! ### The opcode map as rows (R65) -/

/-- A row of R65: a word `w` selects it when `w &&& mask = code` (`code` is the spec's `match`). -/
structure Row where
  mask : Word
  code : Word
  deriving DecidableEq, Repr

/-- The row that stands for an instruction. -/
def rowOf : Instr → Row
  | .cls => ⟨0xFFFF, 0x00E0⟩
  | .ret => ⟨0xFFFF, 0x00EE⟩
  | .jp _ => ⟨0xF000, 0x1000⟩
  | .call _ => ⟨0xF000, 0x2000⟩
  | .seImm _ _ => ⟨0xF000, 0x3000⟩
  | .sneImm _ _ => ⟨0xF000, 0x4000⟩
  | .seReg _ _ => ⟨0xF000, 0x5000⟩
  | .ldImm _ _ => ⟨0xF000, 0x6000⟩
  | .addImm _ _ => ⟨0xF000, 0x7000⟩
  | .ldReg _ _ => ⟨0xF00F, 0x8000⟩
  | .orReg _ _ => ⟨0xF00F, 0x8001⟩
  | .andReg _ _ => ⟨0xF00F, 0x8002⟩
  | .xorReg _ _ => ⟨0xF00F, 0x8003⟩
  | .addReg _ _ => ⟨0xF00F, 0x8004⟩
  | .subReg _ _ => ⟨0xF00F, 0x8005⟩
  | .shr _ => ⟨0xF00F, 0x8006⟩
  | .subnReg _ _ => ⟨0xF00F, 0x8007⟩
  | .shl _ => ⟨0xF00F, 0x800E⟩
  | .sneReg _ _ => ⟨0xF000, 0x9000⟩
  | .ldI _ => ⟨0xF000, 0xA000⟩
  | .jpV0 _ => ⟨0xF000, 0xB000⟩
  | .rnd _ _ => ⟨0xF000, 0xC000⟩
  | .drw _ _ _ => ⟨0xF000, 0xD000⟩
  | .skp _ => ⟨0xF0FF, 0xE09E⟩
  | .sknp _ => ⟨0xF0FF, 0xE0A1⟩
  | .ldFromDt _ => ⟨0xF0FF, 0xF007⟩
  | .ldKey _ => ⟨0xF0FF, 0xF00A⟩
  | .ldDt _ => ⟨0xF0FF, 0xF015⟩
  | .ldSt _ => ⟨0xF0FF, 0xF018⟩
  | .addI _ => ⟨0xF0FF, 0xF01E⟩
  | .ldFont _ => ⟨0xF0FF, 0xF029⟩
  | .ldBcd _ => ⟨0xF0FF, 0xF033⟩
  | .storeRegs _ => ⟨0xF0FF, 0xF055⟩
  | .loadRegs _ => ⟨0xF0FF, 0xF065⟩

/-- The 34 rows of R65, in its order. -/
def opcodeTable : List Row :=
  [⟨0xFFFF, 0x00E0⟩, ⟨0xFFFF, 0x00EE⟩, ⟨0xF000, 0x1000⟩, ⟨0xF000, 0x2000⟩, ⟨0xF000, 0x3000⟩, ⟨0xF000, 0x4000⟩,
   ⟨0xF000, 0x5000⟩, ⟨0xF000, 0x6000⟩, ⟨0xF000, 0x7000⟩, ⟨0xF00F, 0x8000⟩, ⟨0xF00F, 0x8001⟩, ⟨0xF00F, 0x8002⟩,
   ⟨0xF00F, 0x8003⟩, ⟨0xF00F, 0x8004⟩, ⟨0xF00F, 0x8005⟩, ⟨0xF00F, 0x8006⟩, ⟨0xF00F, 0x8007⟩, ⟨0xF00F, 0x800E⟩,
   ⟨0xF000, 0x9000⟩, ⟨0xF000, 0xA000⟩, ⟨0xF000, 0xB000⟩, ⟨0xF000, 0xC000⟩, ⟨0xF000, 0xD000⟩, ⟨0xF0FF, 0xE09E⟩,
   ⟨0xF0FF, 0xE0A1⟩, ⟨0xF0FF, 0xF007⟩, ⟨0xF0FF, 0xF00A⟩, ⟨0xF0FF, 0xF015⟩, ⟨0xF0FF, 0xF018⟩, ⟨0xF0FF, 0xF01E⟩,
   ⟨0xF0FF, 0xF029⟩, ⟨0xF0FF, 0xF033⟩, ⟨0xF0FF, 0xF055⟩, ⟨0xF0FF, 0xF065⟩]

/-- Whether a word selects a row. -/
def Row.matchesWord (r : Row) (w : Word) : Bool := w &&& r.mask == r.code

/-- The bits of an instruction's word that are not don't-care (R67): `n` of `5xyn` and `9xyn` and
`y` of `8xy6` and `8xyE` are. -/
def usedBits : Instr → Word
  | .seReg _ _ | .sneReg _ _ => 0xFFF0
  | .shr _ | .shl _ => 0xFF0F
  | .cls | .ret | .jp _ | .call _ | .seImm _ _ | .sneImm _ _ | .ldImm _ _ | .addImm _ _ | .ldReg _ _ | .orReg _ _
  | .andReg _ _ | .xorReg _ _ | .addReg _ _ | .subReg _ _ | .subnReg _ _ | .ldI _ | .jpV0 _ | .rnd _ _ | .drw _ _ _
  | .skp _ | .sknp _ | .ldFromDt _ | .ldKey _ | .ldDt _ | .ldSt _ | .addI _ | .ldFont _ | .ldBcd _ | .storeRegs _
  | .loadRegs _ => 0xFFFF

/-! ### The host's table words -/

/-- The bytes of a table word of `nbits` bits as the hardware stores them (R44); every bit above `nbits` is 0. -/
def tableBytes (nbits w : Nat) : List Byte := bytesOfWord (BitVec.ofNat 16 (w % 2 ^ nbits))

/-- The instruction the decoder reads from a table word, none where it rejects it. -/
def decodeTableWord (nbits w : Nat) : Option Instr :=
  match decode (tableBytes nbits w) with
  | .ok (i, _) => some i
  | .error _ => none

end Sys2Proof
end

