-- ==== Sys2Proof/Config.lean ====
section
/-! DEFINITION. What is fixed for the machine (spec 00_scope.md R4) and the one free value of the spec,
the random input of `step`. The parameters that a test could move (the font's base and bytes, the stack's depth,
the largest ROM) stand in Machine/Memory.lean, Machine/Ops.lean and Machine/Commands.lean. -/

namespace Sys2Proof.Config

/-- `MEM_SIZE` (R4): the one memory has 4096 bytes; addresses are reduced modulo this number (R43). -/
def memSize : Nat := 4096

/-- `PROG_BASE` (R4): where the ROM image is loaded and where PC stands after reset. -/
def progBase : Nat := 0x200

/-- The random inputs of `step` that the host has not fixed, numbered in the order in which `RND`
consumes them (42_alu.md R112, 10_state.md R22: "an input under no law, a draw"). It has no body: no proof can
see any of its values. DESIGN CHOICE (log 1), safe. -/
opaque rand : Nat → Byte

end Sys2Proof.Config
end

