-- ==== Sys2Proof/Machine/State.lean ====
section
/-! DEFINITION. The architectural state (spec 10_state.md R10), why a step can stop, and the state after
reset (R26). -/

namespace Sys2Proof.Machine

/-- The fault register's three values (60_exceptions.md R150; the code 3 of R20 "is never produced"). -/
inductive FaultCode where
  | none
  | stackOverflow
  | stackUnderflow
  deriving DecidableEq, Repr

/-- The one memory, 4096 bytes (R21), as the bytes that differ from the reset contents: (address, byte)
pairs, addresses strictly rising (`Memory.wf` in Machine/Memory.lean). An unlisted address reads as `resetByte`. -/
abbrev Memory := List Host.Cell

/-- The framebuffer (R17): 32 rows, top row first, of 64 pixels, left pixel first; `true` is on. -/
abbrev Display := Vector (Vector Bool 64) 32

/-- The state of the block (R10) and two fields of the model's own for the random input (R22, log 1). -/
structure State where
  /-- 4096 bytes of memory (R21) -/
  mem : Memory
  /-- V0..VF (R11, R12) -/
  v : Vector Byte 16
  /-- the index register I (R13) -/
  i : Word
  /-- the program counter PC (R14): the address of the next instruction -/
  pc : Word
  /-- the stack pointer SP (R15): the number of frames in use and the index of the newest -/
  sp : Fin 16
  /-- the sixteen return-address slots (R15) -/
  stack : Vector Word 16
  /-- the delay timer DT (R16) -/
  dt : Byte
  /-- the sound timer ST (R16) -/
  st : Byte
  /-- the framebuffer (R17) -/
  fb : Display
  /-- the keypad state register (R18): `true` is held down -/
  keys : Vector Bool 16
  /-- WAITING (R19) -/
  waiting : Bool
  /-- FAULT (R20) -/
  fault : FaultCode
  /-- not the spec's: the `rand` inputs the host has presented for the coming `RND`s, oldest first (log 1) -/
  randIn : List Byte
  /-- not the spec's: how many free random bytes were drawn; the next is `Config.rand draws` (log 1) -/
  draws : Nat
  deriving DecidableEq, Repr

/-- The machine never stops with a fault: the spec's two faults leave a state in which every command is
still accepted (60_exceptions.md R153, R154), so they are next states with FAULT set (log 2). Nobody raises one: safe. -/
inductive Fault where
  deriving DecidableEq, Repr

/-- Why a step or a clock edge has no meaning. Each is safe: the model stops where it says nothing. -/
inductive Refusal where
  /-- `exec`: an instruction that has no meaning yet. No arm answers it. -/
  | notModelled (mnemonic : String)
  /-- Machine/Signals.lean: the command code 7 of the signal binding, which R25 does not define -/
  | undefinedCommandCode
  /-- Machine/Signals.lean: a load-byte edge with an offset beyond the largest ROM, which R25 does not define -/
  | loadByteBeyondRom
  deriving DecidableEq, Repr

/-- The machine right after `reset` (R26, 70_reset_and_hazards.md R180). `v`, `i`, `stack` and `fb` are the spec's
decision D20 (log 4); `randIn` and `draws` are the model's own (log 1). -/
def State.reset : State where
  mem := []
  v := Vector.replicate 16 0
  i := 0
  pc := BitVec.ofNat 16 Config.progBase
  sp := 0
  stack := Vector.replicate 16 0
  dt := 0
  st := 0
  fb := Vector.replicate 32 (Vector.replicate 64 false)
  keys := Vector.replicate 16 false
  waiting := false
  fault := .none
  randIn := []
  draws := 0

end Sys2Proof.Machine
end

