-- ==== Sys2Proof/Machine/Memory.lean ====
section
/-! DEFINITION. The 4096-byte memory (spec 20_memory.md): its reset contents, the font table among them, and
reading and writing one byte. -/

namespace Sys2Proof.Machine

/-- `FONT_BASE` (00_scope.md R4): where glyph 0 stands (the spec's decision D8). -/
def fontBase : Nat := 0x000

/-- The font table of R42, sixteen glyphs of five bytes, top row first. Glyph 0 is the source's; the
others are the spec's general knowledge G3 (log 3). -/
def fontTable : List Byte :=
  [0xF0, 0x90, 0x90, 0x90, 0xF0] ++ [0x20, 0x60, 0x20, 0x20, 0x70] ++
  [0xF0, 0x10, 0xF0, 0x80, 0xF0] ++ [0xF0, 0x10, 0xF0, 0x10, 0xF0] ++
  [0x90, 0x90, 0xF0, 0x10, 0x10] ++ [0xF0, 0x80, 0xF0, 0x10, 0xF0] ++
  [0xF0, 0x80, 0xF0, 0x90, 0xF0] ++ [0xF0, 0x10, 0x20, 0x40, 0x40] ++
  [0xF0, 0x90, 0xF0, 0x90, 0xF0] ++ [0xF0, 0x90, 0xF0, 0x10, 0xF0] ++
  [0xF0, 0x90, 0xF0, 0x90, 0x90] ++ [0xE0, 0x90, 0xE0, 0x90, 0xE0] ++
  [0xF0, 0x80, 0x80, 0x80, 0xF0] ++ [0xE0, 0x90, 0x90, 0x90, 0xE0] ++
  [0xF0, 0x80, 0xF0, 0x80, 0xF0] ++ [0xF0, 0x80, 0xF0, 0x80, 0x80]

/-- What an address reads as after `reset`, and so what an unlisted address reads as (R26, R41): the font
table from `fontBase` on, 0x00 everywhere else. -/
def resetByte (a : Nat) : Byte :=
  if fontBase ≤ a then fontTable.getD (a - fontBase) 0 else 0

/-- The byte at an address. -/
def Memory.read : Memory → Nat → Byte
  | [], a => resetByte a
  | (k, b) :: m, a => if k = a then b else Memory.read m a

/-- The memory with no entry for an address. -/
def Memory.without (m : Memory) (a : Nat) : Memory := m.filter fun c => c.1 ≠ a

/-- An entry put before the first greater address. -/
def Memory.insertCell : Memory → Nat → Byte → Memory
  | [], a, b => [(a, b)]
  | (k, c) :: m, a, b => if a < k then (a, b) :: (k, c) :: m else (k, c) :: Memory.insertCell m a b

/-- Stores a byte, keeping the canonical form: addresses rising, and no entry equal to what the
unlisted address reads as. -/
def Memory.write (m : Memory) (a : Nat) (b : Byte) : Memory :=
  if b = resetByte a then m.without a else (m.without a).insertCell a b

/-- The canonical form from an address on: every key at or above `lo`, below 4096, strictly rising, and no entry
equal to what the unlisted address reads as. -/
def Memory.wfFrom : Memory → Nat → Bool
  | [], _ => true
  | (k, b) :: m, lo =>
    decide (lo ≤ k) && decide (k < Config.memSize) && decide (b ≠ resetByte k) && Memory.wfFrom m (k + 1)

/-- The canonical form: equal memories are equal lists. -/
def Memory.wf (m : Memory) : Bool := Memory.wfFrom m 0

/-- `MemRead(a, 1)` (R43): the address is reduced modulo 4096, so an access never faults. -/
def State.memRead (s : State) (a : Nat) : Byte := s.mem.read (a % Config.memSize)

/-- `MemWrite(a, 1, b)` (R43). -/
def State.memWrite (s : State) (a : Nat) (b : Byte) : State :=
  { s with mem := s.mem.write (a % Config.memSize) b }

/-- Stores bytes at ascending addresses from `a` on, each address reduced modulo 4096 (R46). -/
def State.memWriteList (s : State) (a : Nat) : List Byte → State
  | [] => s
  | b :: bs => (s.memWrite a b).memWriteList (a + 1) bs

end Sys2Proof.Machine
end

