-- ==== Sys2Proof/Machine/Ops.lean ====
section
/-! DEFINITION. The named operations over registers, the display, the stack and the program counter
(spec 00_scope.md R7, 40_flow.md R81), taking a fault (60_exceptions.md R153), and fetching an instruction. -/

namespace Sys2Proof.Machine

/-! ### Registers -/

/-- `V[r]` (R7, R11). -/
def State.getV (s : State) (r : Reg) : Byte := s.v[r]

/-- `V[r] <- b` (R7, R11). No register is hard-wired. -/
def State.setV (s : State) (r : Reg) (b : Byte) : State := { s with v := s.v.set r b }

/-- `I <- w` (R13). -/
def State.setI (s : State) (w : Word) : State := { s with i := w }

/-- `PC <- w` (R14). -/
def State.setPc (s : State) (w : Word) : State := { s with pc := w }

/-- `DT <- b` (R16). -/
def State.setDt (s : State) (b : Byte) : State := { s with dt := b }

/-- `ST <- b` (R16). -/
def State.setSt (s : State) (b : Byte) : State := { s with st := b }

/-- `WAITING <- b` (R19). -/
def State.setWaiting (s : State) (b : Bool) : State := { s with waiting := b }

/-- `keys[k]` (R7, R18). -/
def State.key (s : State) (k : Fin 16) : Bool := s.keys[k]

/-- `keys[k] <- b` (R18); only host commands do this. -/
def State.setKeyBit (s : State) (k : Fin 16) (b : Bool) : State := { s with keys := s.keys.set k b }

/-- Writes the flag first and the result last, both computed beforehand, so that with `x` = 15 the
result wins (42_alu.md R100, the spec's decision D11). -/
def State.setFlagThenV (s : State) (f : Byte) (x : Reg) (r : Byte) : State := (s.setV vF f).setV x r

/-! ### The program counter (R81) -/

/-- `advance` (R7): `PC <- (PC + 2) mod 65536`. -/
def State.advance (s : State) : State := s.setPc (s.pc + 2)

/-- `skip` (R7): `PC <- (PC + 4) mod 65536`. -/
def State.skip (s : State) : State := s.setPc (s.pc + 4)

/-- Skips when the condition holds, else advances (41_skip.md). -/
def State.skipIf (s : State) (c : Bool) : State := if c then s.skip else s.advance

/-! ### The return stack (R15) -/

/-- `stack[j]` (R7). -/
def State.slot (s : State) (j : Fin 16) : Word := s.stack[j]

/-- `stackDepth` frames can be held; slot 0 is never used (00_scope.md R4, the spec's decision D7). -/
def stackDepth : Nat := 15

/-- SP is incremented, then the slot it names is written (R84). -/
def State.push (s : State) (w : Word) : State :=
  { s with sp := s.sp + 1, stack := s.stack.set (s.sp + 1 : Fin 16).val w }

/-- SP is decremented; the slot keeps its value (R15, R82). -/
def State.pop (s : State) : State := { s with sp := s.sp - 1 }

/-! ### The display (R17) -/

/-- The pixel in column `cx`, row `cy`. -/
def Display.pixel (d : Display) (cx : Fin 64) (cy : Fin 32) : Bool := d[cy][cx]

/-- Writes one pixel. -/
def Display.setPixel (d : Display) (cx : Fin 64) (cy : Fin 32) (b : Bool) : Display := d.set cy (d[cy].set cx b)

/-- All pixels off. -/
def Display.blank : Display := Vector.replicate 32 (Vector.replicate 64 false)

/-- `fb[cx, cy]` (R7). -/
def State.pixel (s : State) (cx : Fin 64) (cy : Fin 32) : Bool := Display.pixel s.fb cx cy

/-- Replaces the whole framebuffer: a draw is one indivisible update (R133). -/
def State.setFb (s : State) (d : Display) : State := { s with fb := d }

/-! ### The random input (R22, R112, log 1) -/

/-- The `rand` the next `RND` sees: the oldest one the host has presented, else a free value. -/
def State.randInput (s : State) : Byte :=
  match s.randIn with
  | r :: _ => r
  | [] => Config.rand s.draws

/-- Consumes that input. -/
def State.takeRand (s : State) : State :=
  match s.randIn with
  | _ :: rs => { s with randIn := rs }
  | [] => { s with draws := s.draws + 1 }

/-! ### Faults (60_exceptions.md R150 to R155) -/

/-- The 2-bit code of the fault register (R150). -/
def FaultCode.code : FaultCode → BitVec 2
  | .none => 0
  | .stackOverflow => 1
  | .stackUnderflow => 2

/-- TAKING A FAULT (R153): FAULT is set and nothing else changes; PC keeps the address of the instruction,
nothing is saved, and there is no handler. THE RETURN FROM IT does not exist as an instruction (R155): only the
`reset` command clears FAULT (`resetCommand` in Machine/Commands.lean). -/
def State.raise (s : State) (c : FaultCode) : State := { s with fault := c }

/-- Whether the machine is faulted (R154). -/
def State.faulted (s : State) : Bool := s.fault ≠ .none

/-- A `step` of a faulted machine changes nothing; it does not fetch (R154). -/
def stepFaulted (s : State) : Host.Outcome State Fault Refusal := .next s

/-! ### Fetching (R44) and the no-op (R66) -/

/-- The two bytes at PC and PC + 1, each address reduced modulo 4096 (R43, R44). -/
def State.fetch (s : State) : List Byte := [s.memRead s.pc.toNat, s.memRead (s.pc.toNat + 1)]

/-- An unrecognised word of any class is a no-op that advances PC by 2 (R66). -/
def execUnrecognised (_why : Reject) (s : State) : Host.Outcome State Fault Refusal := .next s.advance

/-- Makes a state fetch the two bytes `bs` next: they are stored at PC and PC + 1, and a fault, in which no
`step` fetches (R154), is cleared (log 7). -/
def State.placeFetch (s : State) (bs : List Byte) : State := (s.memWriteList s.pc.toNat bs).raise .none

end Sys2Proof.Machine
end

