-- ==== Sys2Proof/Machine/Operands.lean ====
section
/-! DEFINITION. The operand forms (spec 30_encoding.md R63, 43_index_memory.md "Addressing") and the values read
through them: zero-extended immediates, 4-bit indices taken from a register, I-relative addresses, the lowest held
key, decimal digits, sprite rows. -/

namespace Sys2Proof.Machine

/-- `zext_16(nnn)` (R63). -/
def zextAddr (nnn : Addr12) : Word := nnn.zeroExtend 16

/-- `zext_16(b)` for a register added to a 16-bit value (R85, R121). -/
def zextByte (b : Byte) : Word := b.zeroExtend 16

/-- `b & 0x0F` as an index 0..15: a key number or a font digit (R94, R122, the spec's decision D18). -/
def lowNibble (b : Byte) : Fin 16 := (b.extractLsb' 0 4).toFin

/-- `I + k` as an address before the reduction modulo 4096 (R43). -/
def State.ea (s : State) (k : Nat) : Nat := s.i.toNat + k

/-- `FONT_BASE + 5 * d` (R122). -/
def glyphAddr (d : Fin 16) : Word := BitVec.ofNat 16 (fontBase + 5 * d.val)

/-- The least `k` with `keys[k] = 1`, if any key is held (45_timers_keys.md R141, the spec's decision D12). -/
def State.lowestHeldKey (s : State) : Option (Fin 16) := (List.finRange 16).find? s.key

/-- A key number as a register value, 0x00..0x0F (R141). -/
def keyByte (k : Fin 16) : Byte := BitVec.ofNat 8 k.val

/-- The hundreds, tens and ones digits of a byte, each as a whole byte 0..9 (R123). -/
def decimalDigits (b : Byte) : List Byte := [b / 100, b / 10 % 10, b % 10]

/-- The values of V0..Vx in order (R124). -/
def State.regsUpTo (s : State) (x : Reg) : List Byte := s.v.toList.take (x.val + 1)

/-- Registers V0..Vx loaded from the bytes at I, I + 1, ...; the others kept (R125). -/
def State.loadedRegs (s : State) (x : Reg) : Vector Byte 16 :=
  Vector.ofFn fun r => if r ≤ x then s.memRead (s.ea r.val) else s.getV r

end Sys2Proof.Machine
end

