-- ==== Sys2Proof/Machine/Flags.lean ====
section
/-! DEFINITION. Every flag computation (spec 10_state.md R27, 42_alu.md R113) and the sprite engine, whose
collision bit is the sixth flag (44_display.md R131). Each flag is a function of the operands alone. -/

namespace Sys2Proof.Machine

/-- A flag as a register value: 0 or 1 (R27). -/
def flagByte (b : Bool) : Byte := if b then 1 else 0

/-- Carry: 1 iff the 9-bit sum exceeds 255 (R107, R113). -/
def carryFlag (a b : Byte) : Byte := flagByte (decide (a.toNat + b.toNat > 255))

/-- Not-borrow of `a - b`, strict: 1 iff `a > b`, 0 when equal (R108, R110, the spec's decision D10). -/
def notBorrowFlag (a b : Byte) : Byte := flagByte (decide (a.toNat > b.toNat))

/-- The bit a right shift moves out: bit 0 (R109). -/
def shiftedOutRight (a : Byte) : Byte := flagByte (a.getLsbD 0)

/-- The bit a left shift moves out: bit 7 (R111). -/
def shiftedOutLeft (a : Byte) : Byte := flagByte (a.getLsbD 7)

/-- Column and row wrap (R132). -/
def wrapCol (n : Nat) : Fin 64 := Fin.ofNat 64 n

/-- Row wrap (R132). -/
def wrapRow (n : Nat) : Fin 32 := Fin.ofNat 32 n

/-- One sprite bit (R131): column offset `c` is bit `7 - c` of the row byte; a set bit flips its pixel and
collides if the pixel was on. -/
def drawBit (px py : Nat) (row : Byte) (r : Nat) (acc : Display × Bool) (c : Nat) : Display × Bool :=
  if row.getLsbD (7 - c) then
    let old := Display.pixel acc.1 (wrapCol (px + c)) (wrapRow (py + r))
    (Display.setPixel acc.1 (wrapCol (px + c)) (wrapRow (py + r)) (!old), acc.2 || old)
  else acc

/-- One sprite row: its eight bits, left to right (R131). -/
def drawRow (px py : Nat) (row : Byte) (r : Nat) (acc : Display × Bool) : Display × Bool :=
  (List.range 8).foldl (drawBit px py row r) acc

/-- The whole sprite: `n` bytes from I on, top row first, over the present display; the new display and
whether a lit pixel was hit (R131). -/
def State.drawSprite (s : State) (px py n : Nat) : Display × Bool :=
  (List.range n).foldl (fun acc r => drawRow px py (s.memRead (s.ea r)) r acc) (s.fb, false)

end Sys2Proof.Machine
end

