-- ==== Sys2Proof/Machine/Alu.lean ====
section
/-! DEFINITION. Register loads, arithmetic, logic, shifts and the random byte (spec 42_alu.md R100 to R113).
Operands are read from the state before the instruction. -/

namespace Sys2Proof.Machine

/-- `LD Vx, kk` (R101). -/
def execLdImm (x : Reg) (kk : Byte) (s : State) : Host.Outcome State Fault Refusal :=
  .next (s.setV x kk).advance

/-- `ADD Vx, kk` (R102): no flag. -/
def execAddImm (x : Reg) (kk : Byte) (s : State) : Host.Outcome State Fault Refusal :=
  .next (s.setV x (s.getV x + kk)).advance

/-- `LD Vx, Vy` (R103). -/
def execLdReg (x y : Reg) (s : State) : Host.Outcome State Fault Refusal :=
  .next (s.setV x (s.getV y)).advance

/-- `OR Vx, Vy` (R104): VF unchanged. -/
def execOrReg (x y : Reg) (s : State) : Host.Outcome State Fault Refusal :=
  .next (s.setV x (s.getV x ||| s.getV y)).advance

/-- `AND Vx, Vy` (R105): VF unchanged. -/
def execAndReg (x y : Reg) (s : State) : Host.Outcome State Fault Refusal :=
  .next (s.setV x (s.getV x &&& s.getV y)).advance

/-- `XOR Vx, Vy` (R106): VF unchanged. -/
def execXorReg (x y : Reg) (s : State) : Host.Outcome State Fault Refusal :=
  .next (s.setV x (s.getV x ^^^ s.getV y)).advance

/-- `ADD Vx, Vy` (R107): VF is the carry. -/
def execAddReg (x y : Reg) (s : State) : Host.Outcome State Fault Refusal :=
  .next (s.setFlagThenV (carryFlag (s.getV x) (s.getV y)) x (s.getV x + s.getV y)).advance

/-- `SUB Vx, Vy` (R108): VF is the strict not-borrow. -/
def execSubReg (x y : Reg) (s : State) : Host.Outcome State Fault Refusal :=
  .next (s.setFlagThenV (notBorrowFlag (s.getV x) (s.getV y)) x (s.getV x - s.getV y)).advance

/-- `SHR Vx` (R109): VF is bit 0 of the old Vx. -/
def execShr (x : Reg) (s : State) : Host.Outcome State Fault Refusal :=
  .next (s.setFlagThenV (shiftedOutRight (s.getV x)) x (s.getV x >>> 1)).advance

/-- `SUBN Vx, Vy` (R110): the reverse difference, VF its strict not-borrow. -/
def execSubnReg (x y : Reg) (s : State) : Host.Outcome State Fault Refusal :=
  .next (s.setFlagThenV (notBorrowFlag (s.getV y) (s.getV x)) x (s.getV y - s.getV x)).advance

/-- `SHL Vx` (R111): VF is bit 7 of the old Vx. -/
def execShl (x : Reg) (s : State) : Host.Outcome State Fault Refusal :=
  .next (s.setFlagThenV (shiftedOutLeft (s.getV x)) x (s.getV x <<< 1)).advance

/-- `RND Vx, kk` (R112): the random input, masked; the input is consumed (log 1). -/
def execRnd (x : Reg) (kk : Byte) (s : State) : Host.Outcome State Fault Refusal :=
  .next (s.takeRand.setV x (s.randInput &&& kk)).advance

end Sys2Proof.Machine
end

