-- ==== Sys2Proof/Machine/Display.lean ====
section
/-! DEFINITION. The two display instructions (spec 44_display.md R130, R131). -/

namespace Sys2Proof.Machine

/-- `CLS` (R130). -/
def execCls (s : State) : Host.Outcome State Fault Refusal :=
  .next (s.setFb Display.blank).advance

/-- `DRW Vx, Vy, n` (R131): the coordinates are sampled before VF is written; display and VF change as one (R133). -/
def execDrw (x y : Reg) (n : Fin 16) (s : State) : Host.Outcome State Fault Refusal :=
  let drawn := s.drawSprite (s.getV x).toNat (s.getV y).toNat n.val
  .next ((s.setFb drawn.1).setV vF (flagByte drawn.2)).advance

end Sys2Proof.Machine
end

