-- ==== Sys2Proof/Machine/Flow.lean ====
section
/-! DEFINITION. The control transfers (spec 40_flow.md R82 to R85). -/

namespace Sys2Proof.Machine

/-- `RET` (R82): a fault on an empty stack, else PC is the saved address of the `CALL` plus 2 (decision D6). -/
def execRet (s : State) : Host.Outcome State Fault Refusal :=
  if s.sp.val = 0 then .next (s.raise .stackUnderflow)
  else .next (s.setPc (s.slot s.sp + 2)).pop

/-- `JP nnn` (R83). -/
def execJp (nnn : Addr12) (s : State) : Host.Outcome State Fault Refusal :=
  .next (s.setPc (zextAddr nnn))

/-- `CALL nnn` (R84): a fault on a full stack, else the address of this `CALL` is pushed. -/
def execCall (nnn : Addr12) (s : State) : Host.Outcome State Fault Refusal :=
  if s.sp.val = stackDepth then .next (s.raise .stackOverflow)
  else .next ((s.push s.pc).setPc (zextAddr nnn))

/-- `JP V0, nnn` (R85): always V0, and the sum keeps 16 bits (decision D19). -/
def execJpV0 (nnn : Addr12) (s : State) : Host.Outcome State Fault Refusal :=
  .next (s.setPc (zextAddr nnn + zextByte (s.getV 0)))

end Sys2Proof.Machine
end

