-- ==== Sys2Proof/Machine/IndexMemory.lean ====
section
/-! DEFINITION. The index register and the memory transfers (spec 43_index_memory.md R120 to R125). None
writes a flag, none changes I by an access (decision D16). -/

namespace Sys2Proof.Machine

/-- `LD I, nnn` (R120). -/
def execLdI (nnn : Addr12) (s : State) : Host.Outcome State Fault Refusal :=
  .next (s.setI (zextAddr nnn)).advance

/-- `ADD I, Vx` (R121): modulo 65536, VF unchanged (decision D17). -/
def execAddI (x : Reg) (s : State) : Host.Outcome State Fault Refusal :=
  .next (s.setI (s.i + zextByte (s.getV x))).advance

/-- `LD F, Vx` (R122): computed, memory is not looked at. -/
def execLdFont (x : Reg) (s : State) : Host.Outcome State Fault Refusal :=
  .next (s.setI (glyphAddr (lowNibble (s.getV x)))).advance

/-- `LD B, Vx` (R123): hundreds, tens, ones at I, I + 1, I + 2. -/
def execLdBcd (x : Reg) (s : State) : Host.Outcome State Fault Refusal :=
  .next (s.memWriteList (s.ea 0) (decimalDigits (s.getV x))).advance

/-- `LD [I], Vx` (R124): V0..Vx inclusive. -/
def execStoreRegs (x : Reg) (s : State) : Host.Outcome State Fault Refusal :=
  .next (s.memWriteList (s.ea 0) (s.regsUpTo x)).advance

/-- `LD Vx, [I]` (R125): V0..Vx inclusive. -/
def execLoadRegs (x : Reg) (s : State) : Host.Outcome State Fault Refusal :=
  .next ({ s with v := s.loadedRegs x } : State).advance

end Sys2Proof.Machine
end

