-- ==== Sys2Proof/Machine/Skip.lean ====
section
/-! DEFINITION. The six conditional skips (spec 41_skip.md R90 to R95). Nothing but PC changes. -/

namespace Sys2Proof.Machine

/-- `SE Vx, kk` (R90). -/
def execSeImm (x : Reg) (kk : Byte) (s : State) : Host.Outcome State Fault Refusal :=
  .next (s.skipIf (s.getV x == kk))

/-- `SNE Vx, kk` (R91). -/
def execSneImm (x : Reg) (kk : Byte) (s : State) : Host.Outcome State Fault Refusal :=
  .next (s.skipIf (s.getV x != kk))

/-- `SE Vx, Vy` (R92). -/
def execSeReg (x y : Reg) (s : State) : Host.Outcome State Fault Refusal :=
  .next (s.skipIf (s.getV x == s.getV y))

/-- `SNE Vx, Vy` (R93). -/
def execSneReg (x y : Reg) (s : State) : Host.Outcome State Fault Refusal :=
  .next (s.skipIf (s.getV x != s.getV y))

/-- `SKP Vx` (R94). -/
def execSkp (x : Reg) (s : State) : Host.Outcome State Fault Refusal :=
  .next (s.skipIf (s.key (lowNibble (s.getV x))))

/-- `SKNP Vx` (R95). -/
def execSknp (x : Reg) (s : State) : Host.Outcome State Fault Refusal :=
  .next (s.skipIf (!s.key (lowNibble (s.getV x))))

end Sys2Proof.Machine
end

