-- ==== Sys2Proof/Machine/TimersKeys.lean ====
section
/-! DEFINITION. The timer and key-wait instructions (spec 45_timers_keys.md R140 to R143). -/

namespace Sys2Proof.Machine

/-- `LD Vx, DT` (R140). -/
def execLdFromDt (x : Reg) (s : State) : Host.Outcome State Fault Refusal :=
  .next (s.setV x s.dt).advance

/-- `LD Vx, K` (R141): a level poll. With no key held PC stays, so the next step runs this instruction
again; else the lowest held key is taken and its bit is not cleared (decision D12). -/
def execLdKey (x : Reg) (s : State) : Host.Outcome State Fault Refusal :=
  match s.lowestHeldKey with
  | none => .next (s.setWaiting true)
  | some k => .next ((s.setV x (keyByte k)).setWaiting false).advance

/-- `LD DT, Vx` (R142). -/
def execLdDt (x : Reg) (s : State) : Host.Outcome State Fault Refusal :=
  .next (s.setDt (s.getV x)).advance

/-- `LD ST, Vx` (R143). -/
def execLdSt (x : Reg) (s : State) : Host.Outcome State Fault Refusal :=
  .next (s.setSt (s.getV x)).advance

end Sys2Proof.Machine
end

