-- ==== Sys2Proof/Machine/Step.lean ====
section
/-! DEFINITION. The `step` command (spec 40_flow.md R80): fetch, decode, execute one instruction. -/

namespace Sys2Proof.Machine

/-- `step(rand)` (R80). The `rand` argument reaches `RND` through the state (log 1); STEP_OK or STEP_FAULT is read
from the next state (`stepResult`, log 2). -/
def step (s : State) : Host.Outcome State Fault Refusal :=
  if s.faulted then stepFaulted s
  else
    match decode s.fetch with
    | .ok (i, _) => exec i s
    | .error why => execUnrecognised why s

/-- `s` with a table word stored where the next step fetches (log 7). -/
def State.withFetchWord (s : State) (nbits w : Nat) : State := s.placeFetch (tableBytes nbits w)

end Sys2Proof.Machine
end

