-- ==== Sys2Proof/Machine/Ports.lean ====
section
/-! DEFINITION. The four outputs, continuous functions of the state read between commands (spec 10_state.md R24,
60_exceptions.md R162, R164). -/

namespace Sys2Proof.Machine

/-- `fb_out` (R164): bit `64*cy + cx` is the pixel in column `cx`, row `cy` (decision D24). -/
def State.fbOut (s : State) : BitVec 2048 :=
  BitVec.ofFnLE fun j => s.pixel (wrapCol j.val) (wrapRow (j.val / 64))

/-- `waiting` (R24). -/
def State.waitingOut (s : State) : Bool := s.waiting

/-- `tone` (R162): 1 exactly when ST is not 0. -/
def State.tone (s : State) : Bool := s.st ≠ 0

/-- `fault` (R24). -/
def State.faultOut (s : State) : BitVec 2 := s.fault.code

end Sys2Proof.Machine
end

