-- ==== Sys2Proof/Machine/Commands.lean ====
section
/-! DEFINITION. The six commands of the block's interface (spec 10_state.md R23), each one atomic transition of
the whole state, accepted in every state (60_exceptions.md R165, decision D31). -/

namespace Sys2Proof.Machine

/-- A command of the host (R23). -/
inductive Command where
  | reset
  | loadProgram (rom : List Byte)
  | step (rand : Byte)
  | tickTimers
  | setKey (k : Fin 16)
  | clearKey (k : Fin 16)
  deriving DecidableEq, Repr

/-- What a command returns (R23): nothing, a status of `load_program`, or a status of `step`. -/
inductive Response where
  | done
  | loadOk
  | romTooLarge
  | stepOk
  | stepFault (c : FaultCode)
  deriving DecidableEq, Repr

/-- `reset()` (R180): every element to its reset value. The random inputs are no part of the block and go on
where they were (log 1). -/
def resetCommand (s : State) : State := { State.reset with randIn := s.randIn, draws := s.draws }

/-- `ROM_MAX` (00_scope.md R4): 4096 - 0x200 bytes. -/
def romMax : Nat := 3584

/-- `load_program(rom)` (R181): all of it from 0x200 on, or nothing. -/
def loadProgram (rom : List Byte) (s : State) : Response × State :=
  if rom.length > romMax then (.romTooLarge, s) else (.loadOk, s.memWriteList Config.progBase rom)

/-- One tick of a timer: toward zero, never below (R161). -/
def countDown (b : Byte) : Byte := if b.toNat > 0 then b - 1 else b

/-- `tick_timers()` (R161). -/
def tickTimers (s : State) : State := (s.setDt (countDown s.dt)).setSt (countDown s.st)

/-- `set_key(k)` (R163). -/
def setKey (k : Fin 16) (s : State) : State := s.setKeyBit k true

/-- `clear_key(k)` (R163). -/
def clearKey (k : Fin 16) (s : State) : State := s.setKeyBit k false

/-- The result of a `step` that ended in this state (R160): FAULT is set exactly when the step faulted or the
machine was faulted already (log 2). -/
def stepResult (t : State) : Response :=
  match t.fault with
  | .none => .stepOk
  | .stackOverflow => .stepFault .stackOverflow
  | .stackUnderflow => .stepFault .stackUnderflow

/-- Puts `rs` in place of the random inputs the host has presented (log 1). -/
def State.setRandIn (s : State) (rs : List Byte) : State := { s with randIn := rs }

/-- Maps the next state of an outcome. -/
def mapNext {α β : Type} (f : α → β) : Host.Outcome α Fault Refusal → Host.Outcome β Fault Refusal
  | .next a => .next (f a)
  | .fault r => .fault r
  | .refused r => .refused r

/-- `step(rand)` (R80): `rand` is presented with this one step and gone after it, consumed or not. -/
def stepCommand (rand : Byte) (s : State) : Host.Outcome (Response × State) Fault Refusal :=
  mapNext (fun t => (stepResult t, t.setRandIn s.randIn)) (step (s.setRandIn [rand]))

/-- One command (R23). -/
def perform (c : Command) (s : State) : Host.Outcome (Response × State) Fault Refusal :=
  match c with
  | .reset => .next (.done, resetCommand s)
  | .loadProgram rom => .next (loadProgram rom s)
  | .step rand => stepCommand rand s
  | .tickTimers => .next (.done, tickTimers s)
  | .setKey k => .next (.done, setKey k s)
  | .clearKey k => .next (.done, clearKey k s)

/-- A run: commands in the order the host issues them (R165), with what each returned. -/
def performAll : List Command → State → Host.Outcome (List Response × State) Fault Refusal
  | [], s => .next ([], s)
  | c :: cs, s =>
    match perform c s with
    | .next (r, t) => mapNext (fun p => (r :: p.1, p.2)) (performAll cs t)
    | .fault e => .fault e
    | .refused e => .refused e

end Sys2Proof.Machine
end

