-- ==== Sys2Proof/Machine/Signals.lean ====
section
/-! DEFINITION. The signal-level binding of the commands (spec 10_state.md R25), informative in the spec: what a
rising clock edge does with the sampled pins (log 8). -/

namespace Sys2Proof.Machine

/-- The sampled pins: `cmd[2:0]`, `arg[11:0]`, `data[7:0]`. -/
structure Pins where
  cmd : BitVec 3
  arg : BitVec 12 := 0
  data : Byte := 0
  deriving DecidableEq, Repr

/-- The load-byte command: `data` at the offset `arg` of the ROM image; an offset no accepted image has is refused
by name. -/
def loadByte (offset : BitVec 12) (data : Byte) (s : State) : Host.Outcome State Fault Refusal :=
  if offset.toNat < romMax then .next (s.memWrite (Config.progBase + offset.toNat) data)
  else .refused .loadByteBeyondRom

/-- One rising clock edge (R25): at most one command, taking effect wholly. Code 0 is no command, 7 is not defined. -/
def clockEdge (p : Pins) (s : State) : Host.Outcome (Response × State) Fault Refusal :=
  match p.cmd with
  | 0#3 => .next (.done, s)
  | 1#3 => perform .reset s
  | 2#3 => mapNext (fun t => (.done, t)) (loadByte p.arg p.data s)
  | 3#3 => perform (.step (p.arg.extractLsb' 0 8)) s
  | 4#3 => perform .tickTimers s
  | 5#3 => perform (.setKey (p.arg.extractLsb' 0 4).toFin) s
  | 6#3 => perform (.clearKey (p.arg.extractLsb' 0 4).toFin) s
  | _ => .refused .undefinedCommandCode

/-- Edges in order. -/
def clockEdges : List Pins → State → Host.Outcome State Fault Refusal
  | [], s => .next s
  | p :: ps, s =>
    match clockEdge p s with
    | .next (_, t) => clockEdges ps t
    | .fault e => .fault e
    | .refused e => .refused e

/-- The load-byte edges of a ROM image, from offset `k` on. -/
def loadEdges : List Byte → Nat → List Pins
  | [], _ => []
  | b :: bs, k => { cmd := 2, arg := BitVec.ofNat 12 k, data := b } :: loadEdges bs (k + 1)

/-- The host-side loader (R25): a length check, then one load-byte edge per ROM byte. -/
def loadByEdges (rom : List Byte) (s : State) : Host.Outcome (Response × State) Fault Refusal :=
  if rom.length > romMax then .next (.romTooLarge, s)
  else mapNext (fun t => (.loadOk, t)) (clockEdges (loadEdges rom 0) s)

end Sys2Proof.Machine
end

