-- ==== Sys2Proof/Safety.lean ====
section
/-! DEFINITION. The words claims use: what two states have in common (frames), how PC moves (spec 40_flow.md R81),
the invariant of the machine, and the idle state (70_reset_and_hazards.md R186). -/

namespace Sys2Proof.Machine

/-! ### Frames -/

/-- The parts of the state besides the V registers and PC. -/
inductive Piece where
  | mem
  | i
  | stack
  | dt
  | st
  | fb
  | keys
  | waiting
  | fault
  | rand
  deriving DecidableEq, Repr

/-- Two states agree on a piece, read through the model's own reads. -/
def SamePiece (s t : State) : Piece → Prop
  | .mem => ∀ a : Nat, t.memRead a = s.memRead a
  | .i => t.i = s.i
  | .stack => t.sp = s.sp ∧ ∀ j, t.slot j = s.slot j
  | .dt => t.dt = s.dt
  | .st => t.st = s.st
  | .fb => ∀ cx cy, t.pixel cx cy = s.pixel cx cy
  | .keys => ∀ k, t.key k = s.key k
  | .waiting => t.waiting = s.waiting
  | .fault => t.fault = s.fault
  | .rand => t.randIn = s.randIn ∧ t.draws = s.draws

/-- The frame: every V register but those in `rs` and every piece but those in `ps` is unchanged. PC may change. -/
def Frame (rs : List Reg) (ps : List Piece) (s t : State) : Prop :=
  (∀ r, r ∉ rs → t.getV r = s.getV r) ∧ ∀ p, p ∉ ps → SamePiece s t p

/-- A frame for an instruction that stores: every byte outside the `len` bytes from `a` on (each address reduced
modulo 4096) reads as before. -/
def SameMemOutside (a len : Nat) (s t : State) : Prop :=
  ∀ b : Nat, (∀ k, k < len → b % 4096 ≠ (a + k) % 4096) → t.memRead b = s.memRead b

/-! ### The program counter (R81) -/

/-- PC has moved on by `d`, modulo 65536. -/
def PcPlus (d : Nat) (s t : State) : Prop := t.pc.toNat = (s.pc.toNat + d) % 65536

/-- `skip` when the condition holds, else `advance`. -/
def SkipsIff (c : Prop) (s t : State) : Prop := (c → PcPlus 4 s t) ∧ (¬c → PcPlus 2 s t)

/-- Where PC stands after each instruction, the seven endings of the table of R81, as a number. -/
def pcAfter (s : State) : Instr → Nat
  | .jp nnn => nnn.toNat
  | .call nnn => if s.sp.val = 15 then s.pc.toNat else nnn.toNat
  | .jpV0 nnn => (nnn.toNat + (s.getV 0).toNat) % 65536
  | .ret => if s.sp.val = 0 then s.pc.toNat else ((s.slot s.sp).toNat + 2) % 65536
  | .seImm x kk => if s.getV x = kk then (s.pc.toNat + 4) % 65536 else (s.pc.toNat + 2) % 65536
  | .sneImm x kk => if s.getV x = kk then (s.pc.toNat + 2) % 65536 else (s.pc.toNat + 4) % 65536
  | .seReg x y => if s.getV x = s.getV y then (s.pc.toNat + 4) % 65536 else (s.pc.toNat + 2) % 65536
  | .sneReg x y => if s.getV x = s.getV y then (s.pc.toNat + 2) % 65536 else (s.pc.toNat + 4) % 65536
  | .skp x => if s.key (lowNibble (s.getV x)) then (s.pc.toNat + 4) % 65536 else (s.pc.toNat + 2) % 65536
  | .sknp x => if s.key (lowNibble (s.getV x)) then (s.pc.toNat + 2) % 65536 else (s.pc.toNat + 4) % 65536
  | .ldKey _ => if ∃ k, s.key k = true then (s.pc.toNat + 2) % 65536 else s.pc.toNat
  | .cls | .ldImm _ _ | .addImm _ _ | .ldReg _ _ | .orReg _ _ | .andReg _ _ | .xorReg _ _ | .addReg _ _ | .subReg _ _
  | .shr _ | .subnReg _ _ | .shl _ | .ldI _ | .rnd _ _ | .drw _ _ _ | .ldFromDt _ | .ldDt _ | .ldSt _ | .addI _
  | .ldFont _ | .ldBcd _ | .storeRegs _ | .loadRegs _ => (s.pc.toNat + 2) % 65536

/-! ### What each instruction may write (10_state.md R27, R29) -/

/-- The V registers an instruction may write: its destination, and VF where VF is its flag (R27). -/
def writtenRegs : Instr → List Reg
  | .cls | .ret | .jp _ | .call _ | .seImm _ _ | .sneImm _ _ | .seReg _ _ | .sneReg _ _ | .ldI _ | .jpV0 _ | .skp _
  | .sknp _ | .ldDt _ | .ldSt _ | .addI _ | .ldFont _ | .ldBcd _ | .storeRegs _ => []
  | .ldImm x _ | .addImm x _ | .ldReg x _ | .orReg x _ | .andReg x _ | .xorReg x _ | .rnd x _ | .ldFromDt x | .ldKey x => [x]
  | .addReg x _ | .subReg x _ | .shr x | .subnReg x _ | .shl x => [vF, x]
  | .drw _ _ _ => [vF]
  | .loadRegs x => (List.finRange 16).filter (· ≤ x)

/-- The other pieces of state an instruction may write (R29); `RND` consumes the random input. -/
def writtenPieces : Instr → List Piece
  | .cls | .drw _ _ _ => [.fb]
  | .ret | .call _ => [.stack, .fault]
  | .ldI _ | .addI _ | .ldFont _ => [.i]
  | .ldBcd _ | .storeRegs _ => [.mem]
  | .ldDt _ => [.dt]
  | .ldSt _ => [.st]
  | .ldKey _ => [.waiting]
  | .rnd _ _ => [.rand]
  | .jp _ | .seImm _ _ | .sneImm _ _ | .seReg _ _ | .sneReg _ _ | .ldImm _ _ | .addImm _ _ | .ldReg _ _ | .orReg _ _
  | .andReg _ _ | .xorReg _ _ | .addReg _ _ | .subReg _ _ | .shr _ | .subnReg _ _ | .shl _ | .jpV0 _ | .skp _ | .sknp _
  | .ldFromDt _ | .loadRegs _ => []

/-- The same state with another random input waiting (log 1). -/
def State.withRand (s : State) (rs : List Byte) (n : Nat) : State := { s with randIn := rs, draws := n }

/-! ### The sprite as a picture (44_display.md R132) -/

/-- Whether the sprite of `n` rows at I, drawn from column `px` and row `py`, has a set bit over the pixel (`cx`, `cy`):
the pixel is `c` columns right and `r` rows down of the corner on the torus, and bit `7 - c` of byte `r` is set. -/
def State.spriteBit (s : State) (px py n : Nat) (cx : Fin 64) (cy : Fin 32) : Bool :=
  let c := (cx.val + 64 - px % 64) % 64
  let r := (cy.val + 32 - py % 32) % 32
  decide (c < 8) && decide (r < n) && (s.memRead (s.ea r)).getLsbD (7 - c)

/-! ### The instruction at PC, and the invariant -/

/-- The word at PC (R44): the byte at the lower address high. -/
def State.wordAtPc (s : State) : Word := wordOfBytes (s.memRead s.pc.toNat) (s.memRead (s.pc.toNat + 1))

/-- The instruction at PC, none for an unrecognised word. -/
def State.instrAtPc (s : State) : Option Instr := (decodeWord s.wordAtPc).toOption

/-- What holds in every state that a run reaches: memory is canonical; while WAITING is 1, PC points at the
`LD Vx, K` that set it (10_state.md R19); a faulted machine stands at the `CALL` or `RET` that faulted, with the stack
full or empty (60_exceptions.md R150, R153). -/
structure State.Inv (s : State) : Prop where
  mem_wf : s.mem.wf = true
  waiting_at_key_wait : s.waiting = true → ∃ x, s.instrAtPc = some (.ldKey x)
  overflow_at_call : s.fault = .stackOverflow → s.sp.val = 15 ∧ ∃ nnn, s.instrAtPc = some (.call nnn)
  underflow_at_ret : s.fault = .stackUnderflow → s.sp.val = 0 ∧ s.instrAtPc = some .ret

/-- The idle state (R186): not faulted, and the instruction at PC jumps to itself. -/
def State.Idle (s : State) : Prop := s.fault = .none ∧ ∃ nnn : Addr12, s.instrAtPc = some (.jp nnn) ∧ nnn.toNat = s.pc.toNat

end Sys2Proof.Machine
end

