-- ==== Sys2Proof/Certificates/Slice0/Obligations.lean ====
section
/-! DEFINITION. The statements for the provers, from the numbered rules of spec/. An instruction's statement says
which words are the instruction, that it answers a next state, what that state holds, and its frame. -/

open Sys2Proof Sys2Proof.Machine

/-! ### Encoding and decoding -/

/-- Every operand of every instruction survives encoding and decoding (30_encoding.md R60 to R63). -/
def Obligations.DecodeOfEncodeIsIdentity : Prop :=
  ∀ (i : Instr) (rest : List Byte), i.wellFormed = true → decode (encode i ++ rest) = .ok (i, rest)

/-- A recognised word is its instruction's encoding up to the don't-care bits of R67, which the encoder writes as 0 (the
model's choice, log 6; that the low nibble of 5xyn and 9xyn is one of them is the spec's decision D14). -/
def Obligations.EncodeOfDecodeKeepsTheUsedBits : Prop :=
  ∀ (w : Word) (i : Instr), decodeWord w = .ok i → encodeWord i = w &&& usedBits i

/-- The opcode map (R65): 34 rows that never overlap, and the two-level decoder selects an instruction of
exactly the row the word matches. The masks F000 of the rows 5xy0 and 9xy0 are the spec's decision D14. -/
def Obligations.DecoderFollowsTheOpcodeMap : Prop :=
  opcodeTable.length = 34 ∧
  (∀ (w : Word) (r₁ r₂ : Row), r₁ ∈ opcodeTable → r₂ ∈ opcodeTable → w &&& r₁.mask = r₁.code →
    w &&& r₂.mask = r₂.code → r₁ = r₂) ∧
  (∀ (w : Word) (i : Instr), decodeWord w = .ok i → rowOf i ∈ opcodeTable ∧ w &&& (rowOf i).mask = (rowOf i).code) ∧
  (∀ (w : Word) (r : Row), r ∈ opcodeTable → w &&& r.mask = r.code → ∃ i, decodeWord w = .ok i ∧ rowOf i = r)

/-- The decoder rejects exactly the words of the table of R66 (which words these are rests on the spec's
decision D29). -/
def Obligations.UnrecognisedWordsAreTheListedOnes : Prop :=
  ∀ w : Word, (∃ e, decodeWord w = .error e) ↔
    (w.toNat / 4096 = 0 ∧ w.toNat % 4096 ≠ 0x0E0 ∧ w.toNat % 4096 ≠ 0x0EE) ∨
    (w.toNat / 4096 = 8 ∧ w.toNat % 16 ∈ [0x8, 0x9, 0xA, 0xB, 0xC, 0xD, 0xF]) ∨
    (w.toNat / 4096 = 14 ∧ w.toNat % 256 ∉ [0x9E, 0xA1]) ∨
    (w.toNat / 4096 = 15 ∧ w.toNat % 256 ∉ [0x07, 0x0A, 0x15, 0x18, 0x1E, 0x29, 0x33, 0x55, 0x65])

/-- Words written out in the spec (95_test_vectors.md) decode to the instructions it gives. -/
def Obligations.SpecWordsDecodeAsTheSpecSays : Prop :=
  decode [0x60, 0x05] = .ok (.ldImm 0 0x05, []) ∧ decode [0x00, 0xE0] = .ok (.cls, []) ∧
  decode [0x12, 0x00] = .ok (.jp 0x200, []) ∧ decode [0xA0, 0x50] = .ok (.ldI 0x050, []) ∧
  decode [0xD0, 0x05] = .ok (.drw 0 0 5, []) ∧ decode [0xF0, 0x15] = .ok (.ldDt 0, []) ∧
  decode [0x83, 0xF6] = .ok (.shr 3, []) ∧ decode [0x51, 0x21] = .ok (.seReg 1 2, []) ∧
  decode [0xE1, 0x9E] = .ok (.skp 1, []) ∧ decode [0x81, 0x28] = .error .unrecognised8

/-! ### One step -/

/-- A step of a machine that is not faulted runs the instruction whose two bytes, high byte first, lie at PC and
PC + 1 (R44, R80). Nothing is added around `exec`. -/
def Obligations.StepRunsTheDecodedInstruction : Prop :=
  ∀ (s : State) (i : Instr), s.fault = .none → i.wellFormed = true →
    decodeWord (s.memRead s.pc.toNat ++ s.memRead (s.pc.toNat + 1)) = .ok i → step s = exec i s

/-- An unrecognised word at PC is a no-op: PC advances by 2, nothing else changes, the result is STEP_OK (R66). -/
def Obligations.StepAdvancesOverUnrecognisedWords : Prop :=
  ∀ (s : State) (e : Reject), s.fault = .none → decodeWord s.wordAtPc = .error e →
    ∃ t, step s = .next t ∧ PcPlus 2 s t ∧ Frame [] [] s t ∧ stepResult t = .stepOk

/-- A step of a faulted machine changes no state and reports the fault again (R154, the spec's decision D23). -/
def Obligations.FaultedStepChangesNothing : Prop :=
  ∀ (s : State) (r : Byte), s.fault ≠ .none →
    step s = .next s ∧ stepCommand r s = .next (.stepFault s.fault, s)

/-- Every command is accepted in every state and has an outcome; no step stops the machine
(93_implementation_defined.md Part 1, last sentence). -/
def Obligations.EveryCommandIsAccepted : Prop :=
  ∀ (s : State) (c : Command), (∃ t, step s = .next t) ∧ ∃ r t, perform c s = .next (r, t)

/-- The invariant holds after reset. -/
def Obligations.ResetMeetsTheInvariant : Prop := State.reset.Inv

/-- Every step keeps the invariant: canonical memory; WAITING only at the key-wait that set it (R19); a faulted machine
stands at the instruction that faulted, the stack full or empty (R150, R153). -/
def Obligations.StepKeepsTheInvariant : Prop :=
  ∀ s t : State, s.Inv → step s = .next t → t.Inv

/-- Every command keeps the invariant; `load_program` does so where nothing is waiting or faulted, as after the reset the
boot order asks for (R182). -/
def Obligations.CommandsKeepTheInvariant : Prop :=
  ∀ (s t : State) (c : Command) (r : Response), s.Inv →
    (∀ rom, c = .loadProgram rom → s.waiting = false ∧ s.fault = .none) → perform c s = .next (r, t) → t.Inv

/-! ### Register loads, arithmetic, logic, shifts, random (42_alu.md) -/

/-- `LD Vx, kk` and `LD Vx, Vy` (R101, R103). -/
def Obligations.RegisterLoadsCopyTheirOperand : Prop :=
  ∀ (s : State) (x y : Reg) (kk : Byte),
    (decodeWord (BitVec.ofNat 16 (0x6000 + 256 * x.val + kk.toNat)) = .ok (.ldImm x kk) ∧
      ∃ t, exec (.ldImm x kk) s = .next t ∧ t.getV x = kk ∧ PcPlus 2 s t ∧ Frame [x] [] s t) ∧
    (decodeWord (BitVec.ofNat 16 (0x8000 + 256 * x.val + 16 * y.val)) = .ok (.ldReg x y) ∧
      ∃ t, exec (.ldReg x y) s = .next t ∧ t.getV x = s.getV y ∧ PcPlus 2 s t ∧ Frame [x] [] s t)

/-- `ADD Vx, kk`, `OR`, `AND`, `XOR` write Vx and no flag (R102, R104 to R106; that VF is left alone is the
spec's decision D15). -/
def Obligations.ImmediateAddAndLogicWriteNoFlag : Prop :=
  ∀ (s : State) (x y : Reg) (kk : Byte),
    (∃ t, exec (.addImm x kk) s = .next t ∧ (t.getV x).toNat = ((s.getV x).toNat + kk.toNat) % 256 ∧
      PcPlus 2 s t ∧ Frame [x] [] s t) ∧
    (∃ t, exec (.orReg x y) s = .next t ∧
      (∀ j, (t.getV x).getLsbD j = ((s.getV x).getLsbD j || (s.getV y).getLsbD j)) ∧ PcPlus 2 s t ∧ Frame [x] [] s t) ∧
    (∃ t, exec (.andReg x y) s = .next t ∧
      (∀ j, (t.getV x).getLsbD j = ((s.getV x).getLsbD j && (s.getV y).getLsbD j)) ∧ PcPlus 2 s t ∧ Frame [x] [] s t) ∧
    (∃ t, exec (.xorReg x y) s = .next t ∧
      (∀ j, (t.getV x).getLsbD j = ((s.getV x).getLsbD j ^^ (s.getV y).getLsbD j)) ∧ PcPlus 2 s t ∧ Frame [x] [] s t)

/-- `ADD Vx, Vy` (R107): Vx is the sum mod 256, VF is 1 iff the sum exceeds 255; with `x` = 15 the sum wins (R100, the
spec's decision D11). -/
def Obligations.AddWritesSumAndCarry : Prop :=
  ∀ (s : State) (x y : Reg),
    decodeWord (BitVec.ofNat 16 (0x8004 + 256 * x.val + 16 * y.val)) = .ok (.addReg x y) ∧
    ∃ t, exec (.addReg x y) s = .next t ∧
      (t.getV x).toNat = ((s.getV x).toNat + (s.getV y).toNat) % 256 ∧
      (x ≠ vF → t.getV vF = if (s.getV x).toNat + (s.getV y).toNat > 255 then 1 else 0) ∧
      PcPlus 2 s t ∧ Frame [vF, x] [] s t

/-- `SUB` and `SUBN` (R108, R110): the difference mod 256, VF the strict not-borrow (the spec's decision D10); with `x` =
15 the difference wins (D11). -/
def Obligations.SubtractionsWriteDifferenceAndNotBorrow : Prop :=
  ∀ (s : State) (x y : Reg),
    (∃ t, exec (.subReg x y) s = .next t ∧
      (t.getV x).toNat = ((s.getV x).toNat + 256 - (s.getV y).toNat) % 256 ∧
      (x ≠ vF → t.getV vF = if (s.getV x).toNat > (s.getV y).toNat then 1 else 0) ∧
      PcPlus 2 s t ∧ Frame [vF, x] [] s t) ∧
    (∃ t, exec (.subnReg x y) s = .next t ∧
      (t.getV x).toNat = ((s.getV y).toNat + 256 - (s.getV x).toNat) % 256 ∧
      (x ≠ vF → t.getV vF = if (s.getV y).toNat > (s.getV x).toNat then 1 else 0) ∧
      PcPlus 2 s t ∧ Frame [vF, x] [] s t)

/-- `SHR` and `SHL` (R109, R111): one bit, logical, the bit moved out in VF, the `y` field ignored; with `x` = 15 the
shifted value wins (D11). -/
def Obligations.ShiftsMoveOneBitIntoVF : Prop :=
  ∀ (s : State) (x y : Reg),
    (decodeWord (BitVec.ofNat 16 (0x8006 + 256 * x.val + 16 * y.val)) = .ok (.shr x) ∧
      ∃ t, exec (.shr x) s = .next t ∧ (t.getV x).toNat = (s.getV x).toNat / 2 ∧
        (x ≠ vF → (t.getV vF).toNat = (s.getV x).toNat % 2) ∧ PcPlus 2 s t ∧ Frame [vF, x] [] s t) ∧
    (decodeWord (BitVec.ofNat 16 (0x800E + 256 * x.val + 16 * y.val)) = .ok (.shl x) ∧
      ∃ t, exec (.shl x) s = .next t ∧ (t.getV x).toNat = 2 * (s.getV x).toNat % 256 ∧
        (x ≠ vF → (t.getV vF).toNat = (s.getV x).toNat / 128) ∧ PcPlus 2 s t ∧ Frame [vF, x] [] s t)

/-- `RND` (R112): the random input masked by `kk`, whatever that input is; a byte the host presented (the spec's decision
D13) is the one used, and it is consumed (the model's choice, log 1). -/
def Obligations.RandomByteIsMasked : Prop :=
  ∀ (s : State) (x : Reg) (kk : Byte),
    (∃ t, exec (.rnd x kk) s = .next t ∧ t.getV x = s.randInput &&& kk ∧
      (∀ j, (t.getV x).getLsbD j = true → kk.getLsbD j = true) ∧ PcPlus 2 s t ∧ Frame [x] [.rand] s t) ∧
    (∀ (r : Byte) (rs : List Byte), ∃ t, exec (.rnd x kk) (s.setRandIn (r :: rs)) = .next t ∧ t.getV x = r &&& kk ∧
      t.randIn = rs)

/-! ### Skips (41_skip.md) -/

/-- `SE Vx, kk` and `SNE Vx, kk` (R90, R91). -/
def Obligations.ImmediateSkipsCompare : Prop :=
  ∀ (s : State) (x : Reg) (kk : Byte),
    (decodeWord (BitVec.ofNat 16 (0x3000 + 256 * x.val + kk.toNat)) = .ok (.seImm x kk) ∧
      ∃ t, exec (.seImm x kk) s = .next t ∧ SkipsIff (s.getV x = kk) s t ∧ Frame [] [] s t) ∧
    (decodeWord (BitVec.ofNat 16 (0x4000 + 256 * x.val + kk.toNat)) = .ok (.sneImm x kk) ∧
      ∃ t, exec (.sneImm x kk) s = .next t ∧ SkipsIff (s.getV x ≠ kk) s t ∧ Frame [] [] s t)

/-- `SE Vx, Vy` and `SNE Vx, Vy` for every low nibble (R92, R93; that it is ignored is the spec's decision D14). -/
def Obligations.RegisterSkipsCompare : Prop :=
  ∀ (s : State) (x y n : Reg),
    (decodeWord (BitVec.ofNat 16 (0x5000 + 256 * x.val + 16 * y.val + n.val)) = .ok (.seReg x y) ∧
      ∃ t, exec (.seReg x y) s = .next t ∧ SkipsIff (s.getV x = s.getV y) s t ∧ Frame [] [] s t) ∧
    (decodeWord (BitVec.ofNat 16 (0x9000 + 256 * x.val + 16 * y.val + n.val)) = .ok (.sneReg x y) ∧
      ∃ t, exec (.sneReg x y) s = .next t ∧ SkipsIff (s.getV x ≠ s.getV y) s t ∧ Frame [] [] s t)

/-- `SKP` and `SKNP` test the key numbered by the low nibble of Vx (R94, R95; the low nibble is the spec's
decision D18). -/
def Obligations.KeySkipsTestTheKeyOfTheLowNibble : Prop :=
  ∀ (s : State) (x : Reg) (k : Fin 16), k.val = (s.getV x).toNat % 16 →
    (∃ t, exec (.skp x) s = .next t ∧ SkipsIff (s.key k = true) s t ∧ Frame [] [] s t) ∧
    (∃ t, exec (.sknp x) s = .next t ∧ SkipsIff (s.key k = false) s t ∧ Frame [] [] s t)

/-! ### Control transfer (40_flow.md) -/

/-- `JP nnn` (R83). -/
def Obligations.JumpSetsPc : Prop :=
  ∀ (s : State) (nnn : Addr12),
    decodeWord (BitVec.ofNat 16 (0x1000 + nnn.toNat)) = .ok (.jp nnn) ∧
    ∃ t, exec (.jp nnn) s = .next t ∧ t.pc.toNat = nnn.toNat ∧ Frame [] [] s t

/-- `JP V0, nnn` (R85; the 16-bit sum with V0 is the spec's decision D19). -/
def Obligations.IndexedJumpAddsV0 : Prop :=
  ∀ (s : State) (nnn : Addr12),
    ∃ t, exec (.jpV0 nnn) s = .next t ∧ t.pc.toNat = nnn.toNat + (s.getV 0).toNat ∧ Frame [] [] s t

/-- `CALL nnn` below the stack's limit (R84; that slot 0 is never used is the spec's decision D7): SP goes up by one, the
slot it then names holds the address of this `CALL`, every other slot is kept. -/
def Obligations.CallPushesItsOwnAddress : Prop :=
  ∀ (s : State) (nnn : Addr12), s.sp.val ≠ 15 →
    ∃ t, exec (.call nnn) s = .next t ∧ t.pc.toNat = nnn.toNat ∧ t.sp.val = s.sp.val + 1 ∧ t.slot t.sp = s.pc ∧
      (∀ j, j ≠ t.sp → t.slot j = s.slot j) ∧ Frame [] [.stack] s t

/-- `RET` with a frame on the stack (R82; the `+ 2` is the spec's decision D6): the slots all keep their values. -/
def Obligations.RetReturnsPastTheCall : Prop :=
  ∀ s : State, s.sp.val ≠ 0 →
    ∃ t, exec .ret s = .next t ∧ t.pc.toNat = ((s.slot s.sp).toNat + 2) % 65536 ∧ t.sp.val = s.sp.val - 1 ∧
      (∀ j, t.slot j = s.slot j) ∧ Frame [] [.stack] s t

/-- A `CALL` on a full stack and a `RET` on an empty one take the fault: FAULT is set and nothing else changes, PC
included (R151 to R153, the spec's decision D4). -/
def Obligations.StackFaultsChangeOnlyFault : Prop :=
  ∀ (s : State) (nnn : Addr12),
    (s.sp.val = 15 → ∃ t, exec (.call nnn) s = .next t ∧ t.fault = .stackOverflow ∧ t.pc = s.pc ∧ Frame [] [.fault] s t) ∧
    (s.sp.val = 0 → ∃ t, exec .ret s = .next t ∧ t.fault = .stackUnderflow ∧ t.pc = s.pc ∧ Frame [] [.fault] s t)

/-- A `CALL` and then a `RET` come back to the instruction after the `CALL`, with SP as before and only the pushed slot
changed (R82, R84, decisions D6 and D7). -/
def Obligations.CallThenRetComesBack : Prop :=
  ∀ (s t : State) (nnn : Addr12), s.sp.val ≠ 15 → exec (.call nnn) s = .next t →
    ∃ u, exec .ret t = .next u ∧ PcPlus 2 s u ∧ u.sp = s.sp ∧ (∀ j, j ≠ t.sp → u.slot j = s.slot j) ∧
      Frame [] [.stack] s u

/-! ### The index register and memory (43_index_memory.md) -/

/-- `LD I, nnn` (R120). -/
def Obligations.LoadIndexSetsI : Prop :=
  ∀ (s : State) (nnn : Addr12),
    decodeWord (BitVec.ofNat 16 (0xA000 + nnn.toNat)) = .ok (.ldI nnn) ∧
    ∃ t, exec (.ldI nnn) s = .next t ∧ t.i.toNat = nnn.toNat ∧ PcPlus 2 s t ∧ Frame [] [.i] s t

/-- `ADD I, Vx` mod 65536 without a flag (R121, the spec's decision D17) and `LD F, Vx`, five bytes a glyph from 0x000 on
(R122, the spec's decisions D8 and D18). -/
def Obligations.IndexSumAndFontAddress : Prop :=
  ∀ (s : State) (x : Reg),
    (∃ t, exec (.addI x) s = .next t ∧ t.i.toNat = (s.i.toNat + (s.getV x).toNat) % 65536 ∧ PcPlus 2 s t ∧
      Frame [] [.i] s t) ∧
    (∃ t, exec (.ldFont x) s = .next t ∧ t.i.toNat = 5 * ((s.getV x).toNat % 16) ∧ PcPlus 2 s t ∧ Frame [] [.i] s t)

/-- `LD B, Vx` (R123): hundreds, tens and ones at I, I + 1, I + 2, each address reduced mod 4096 (the spec's
decision D2); every other byte is kept, and I is left alone (its decision D16). -/
def Obligations.DecimalDigitsAreStored : Prop :=
  ∀ (s : State) (x : Reg),
    decodeWord (BitVec.ofNat 16 (0xF033 + 256 * x.val)) = .ok (.ldBcd x) ∧
    ∃ t, exec (.ldBcd x) s = .next t ∧ (t.memRead (s.ea 0)).toNat = (s.getV x).toNat / 100 ∧
      (t.memRead (s.ea 1)).toNat = (s.getV x).toNat / 10 % 10 ∧ (t.memRead (s.ea 2)).toNat = (s.getV x).toNat % 10 ∧
      SameMemOutside (s.ea 0) 3 s t ∧ PcPlus 2 s t ∧ Frame [] [.mem] s t

/-- `LD [I], Vx` (R124; that I is left alone is the spec's decision D16, the reduction mod 4096 D2): V0 to Vx, inclusive, at I, I + 1, ... -/
def Obligations.RegistersAreStoredFromI : Prop :=
  ∀ (s : State) (x : Reg),
    ∃ t, exec (.storeRegs x) s = .next t ∧ (∀ r : Reg, r ≤ x → t.memRead (s.ea r.val) = s.getV r) ∧
      SameMemOutside (s.ea 0) (x.val + 1) s t ∧ PcPlus 2 s t ∧ Frame [] [.mem] s t

/-- `LD Vx, [I]` (R125; that I is left alone is the spec's decision D16, the reduction mod 4096 D2): V0 to Vx,
inclusive; the registers above are kept. -/
def Obligations.RegistersAreLoadedFromI : Prop :=
  ∀ (s : State) (x : Reg),
    ∃ t, exec (.loadRegs x) s = .next t ∧ (∀ r : Reg, r ≤ x → t.getV r = s.memRead (s.ea r.val)) ∧
      (∀ r : Reg, x < r → t.getV r = s.getV r) ∧ PcPlus 2 s t ∧ Frame (writtenRegs (.loadRegs x)) [] s t

/-- What `LD [I], Vx` stored, `LD Vx, [I]` with the same I and memory gives back, whatever the registers hold by then,
also where the addresses wrap past 0xFFF (R124, R125, decisions D2 and D16). -/
def Obligations.StoredRegistersLoadBack : Prop :=
  ∀ (s t u : State) (x : Reg), exec (.storeRegs x) s = .next t → u.i = s.i → SamePiece t u .mem →
    ∃ w, exec (.loadRegs x) u = .next w ∧ ∀ r : Reg, r ≤ x → w.getV r = s.getV r

/-- A store is seen by the very next fetch (20_memory.md R50): when `LD [I], Vx` stores V0 and V1 over the word that
follows it, that word is what the next step decodes. -/
def Obligations.StoredWordIsFetchedNext : Prop :=
  ∀ (s : State) (x : Reg), 1 ≤ x.val → s.i.toNat = s.pc.toNat + 2 →
    ∃ t, exec (.storeRegs x) s = .next t ∧ t.wordAtPc = s.getV 0 ++ s.getV 1

/-! ### Display (44_display.md) -/

/-- `CLS` (R130). -/
def Obligations.ClearTurnsAllPixelsOff : Prop :=
  decodeWord 0x00E0 = .ok .cls ∧
  ∀ s : State, ∃ t, exec .cls s = .next t ∧ (∀ cx cy, t.pixel cx cy = false) ∧ PcPlus 2 s t ∧ Frame [] [.fb] s t

/-- `DRW Vx, Vy, n` (R131, R132; the collision predicate and `n` = 0 are the spec's decisions D9 and D30): each pixel
is flipped exactly where the sprite on the torus has a set bit, and VF is 1 exactly if such a pixel was on. -/
def Obligations.DrawXorsTheSprite : Prop :=
  ∀ (s : State) (x y : Reg) (n : Fin 16),
    ∃ t, exec (.drw x y n) s = .next t ∧
      (∀ cx cy, t.pixel cx cy = (s.pixel cx cy ^^ s.spriteBit (s.getV x).toNat (s.getV y).toNat n.val cx cy)) ∧
      ((∃ cx cy, s.pixel cx cy = true ∧ s.spriteBit (s.getV x).toNat (s.getV y).toNat n.val cx cy = true) →
        t.getV vF = 1) ∧
      ((¬∃ cx cy, s.pixel cx cy = true ∧ s.spriteBit (s.getV x).toNat (s.getV y).toNat n.val cx cy = true) →
        t.getV vF = 0) ∧
      PcPlus 2 s t ∧ Frame [vF] [.fb] s t

/-- Drawing the same sprite twice at a place not named by VF restores the display, and the second draw reports a collision
exactly if the first turned a pixel on (95_test_vectors.md S7). -/
def Obligations.DrawingTwiceRestoresTheDisplay : Prop :=
  ∀ (s t u : State) (x y : Reg) (n : Fin 16), x ≠ vF → y ≠ vF → exec (.drw x y n) s = .next t →
    exec (.drw x y n) t = .next u →
    (∀ cx cy, u.pixel cx cy = s.pixel cx cy) ∧
      (u.getV vF = 1 ↔ ∃ cx cy, s.pixel cx cy = false ∧ t.pixel cx cy = true)

/-! ### Timers and keys (45_timers_keys.md) -/

/-- `LD Vx, DT`, `LD DT, Vx`, `LD ST, Vx` (R140, R142, R143). -/
def Obligations.TimerInstructionsCopy : Prop :=
  ∀ (s : State) (x : Reg),
    (decodeWord (BitVec.ofNat 16 (0xF007 + 256 * x.val)) = .ok (.ldFromDt x) ∧
      ∃ t, exec (.ldFromDt x) s = .next t ∧ t.getV x = s.dt ∧ PcPlus 2 s t ∧ Frame [x] [] s t) ∧
    (decodeWord (BitVec.ofNat 16 (0xF015 + 256 * x.val)) = .ok (.ldDt x) ∧
      ∃ t, exec (.ldDt x) s = .next t ∧ t.dt = s.getV x ∧ PcPlus 2 s t ∧ Frame [] [.dt] s t) ∧
    (decodeWord (BitVec.ofNat 16 (0xF018 + 256 * x.val)) = .ok (.ldSt x) ∧
      ∃ t, exec (.ldSt x) s = .next t ∧ t.st = s.getV x ∧ PcPlus 2 s t ∧ Frame [] [.st] s t)

/-- `LD Vx, K` (R141; the level poll and the lowest key are the spec's decision D12): with a key held, Vx is the least held
key, WAITING is cleared and PC advances; with none, WAITING is set and PC stays. -/
def Obligations.KeyWaitTakesTheLowestHeldKey : Prop :=
  ∀ (s : State) (x : Reg),
    (∀ k : Fin 16, s.key k = true → (∀ j, j < k → s.key j = false) →
      ∃ t, exec (.ldKey x) s = .next t ∧ (t.getV x).toNat = k.val ∧ t.waiting = false ∧ PcPlus 2 s t ∧
        Frame [x] [.waiting] s t) ∧
    ((∀ k, s.key k = false) →
      ∃ t, exec (.ldKey x) s = .next t ∧ t.waiting = true ∧ t.pc = s.pc ∧ Frame [] [.waiting] s t)

/-- A key-wait with no key held stays where it is for any number of steps, changing WAITING alone
(95_test_vectors.md S8). -/
def Obligations.KeyWaitHoldsForAnyNumberOfSteps : Prop :=
  ∀ (s : State) (x : Reg) (k : Nat), s.fault = .none → s.instrAtPc = some (.ldKey x) → (∀ j, s.key j = false) →
    Host.Core.run Sys2Proof.core (k + 1) s = .next (s.setWaiting true)

/-! ### All instructions -/

/-- Every instruction answers a next state and changes only the registers and pieces of state listed for it
(10_state.md R15, R27, R29). -/
def Obligations.EveryInstructionStaysInItsFrame : Prop :=
  ∀ (i : Instr) (s : State), ∃ t, exec i s = .next t ∧ Frame (writtenRegs i) (writtenPieces i) s t

/-- Every instruction leaves PC in the one of the seven ways its row of R81 gives (with the spec's decision D3). -/
def Obligations.EveryInstructionEndsPcAsListed : Prop :=
  ∀ (i : Instr) (s t : State), exec i s = .next t → t.pc.toNat = pcAfter s i

/-- The random input reaches `RND` alone: every other instruction does the same whatever it is (R80). -/
def Obligations.RandomInputReachesOnlyRnd : Prop :=
  ∀ (i : Instr) (s t : State) (rs : List Byte) (n : Nat), (∀ x kk, i ≠ .rnd x kk) → exec i s = .next t →
    exec i (s.withRand rs n) = .next (t.withRand rs n)

/-- An idle state stays as it is at every step (R186; which states are idle is the spec's decision D26). -/
def Obligations.IdleStateStays : Prop := ∀ s : State, s.Idle → step s = .next s

/-! ### Host commands and ports -/

/-- `reset` from any state (R180, R26; V, I, the stack slots and the display are zero by the spec's decision D20,
the font's place by D8): every element at its listed value, and no fault. -/
def Obligations.ResetGivesEveryListedValue : Prop :=
  ∀ s : State, ∃ t, perform .reset s = .next (.done, t) ∧
    (∀ a, 80 ≤ a → a < 4096 → t.memRead a = 0) ∧
    (List.range 80).map t.memRead =
      [0xF0, 0x90, 0x90, 0x90, 0xF0, 0x20, 0x60, 0x20, 0x20, 0x70, 0xF0, 0x10, 0xF0, 0x80, 0xF0, 0xF0, 0x10, 0xF0, 0x10, 0xF0,
       0x90, 0x90, 0xF0, 0x10, 0x10, 0xF0, 0x80, 0xF0, 0x10, 0xF0, 0xF0, 0x80, 0xF0, 0x90, 0xF0, 0xF0, 0x10, 0x20, 0x40, 0x40,
       0xF0, 0x90, 0xF0, 0x90, 0xF0, 0xF0, 0x90, 0xF0, 0x10, 0xF0, 0xF0, 0x90, 0xF0, 0x90, 0x90, 0xE0, 0x90, 0xE0, 0x90, 0xE0,
       0xF0, 0x80, 0x80, 0x80, 0xF0, 0xE0, 0x90, 0x90, 0x90, 0xE0, 0xF0, 0x80, 0xF0, 0x80, 0xF0, 0xF0, 0x80, 0xF0, 0x80, 0x80] ∧
    t.pc = 0x200 ∧ t.sp.val = 0 ∧ t.dt = 0 ∧ t.st = 0 ∧ (∀ k, t.key k = false) ∧ t.waiting = false ∧
    (∀ r, t.getV r = 0) ∧ t.i = 0 ∧ (∀ j, t.slot j = 0) ∧ (∀ cx cy, t.pixel cx cy = false) ∧ t.fault = .none

/-- `load_program` (R181, the spec's decision D22): an image of at most 3584 bytes lies at 0x200 byte for byte and no
other byte changes; a longer one is rejected and nothing changes. -/
def Obligations.LoadProgramPlacesTheImage : Prop :=
  ∀ (s : State) (rom : List Byte),
    (rom.length ≤ 3584 → ∃ t, perform (.loadProgram rom) s = .next (.loadOk, t) ∧
      (∀ j, (h : j < rom.length) → t.memRead (0x200 + j) = rom[j]) ∧
      SameMemOutside 0x200 rom.length s t ∧ t.pc = s.pc ∧ Frame [] [.mem] s t) ∧
    (3584 < rom.length → perform (.loadProgram rom) s = .next (.romTooLarge, s))

/-- After `reset` and `load_program` the first step runs the image's first instruction (R182). -/
def Obligations.BootRunsTheFirstInstruction : Prop :=
  ∀ (s : State) (hi lo : Byte) (rest : List Byte) (i : Instr), rest.length + 2 ≤ 3584 →
    decodeWord (hi ++ lo) = .ok i →
    ∃ t, performAll [.reset, .loadProgram (hi :: lo :: rest)] s = .next ([.done, .loadOk], t) ∧ t.pc = 0x200 ∧
      step t = exec i t

/-- Any number of timer ticks takes each timer that many down, never below zero, independently, and changes nothing
else (60_exceptions.md R161). -/
def Obligations.TicksCountDownToZero : Prop :=
  ∀ (n : Nat) (s : State),
    (tickTimers^[n] s).dt.toNat = s.dt.toNat - n ∧ (tickTimers^[n] s).st.toNat = s.st.toNat - n ∧
    (tickTimers^[n] s).pc = s.pc ∧ Frame [] [.dt, .st] s (tickTimers^[n] s)

/-- `set_key(k)` and `clear_key(k)` set and clear that key and nothing else (R163). -/
def Obligations.KeyCommandsChangeOneKey : Prop :=
  ∀ (s : State) (k : Fin 16),
    (∃ t, perform (.setKey k) s = .next (.done, t) ∧ t.key k = true ∧ (∀ j, j ≠ k → t.key j = s.key j) ∧ t.pc = s.pc ∧
      Frame [] [.keys] s t) ∧
    (∃ t, perform (.clearKey k) s = .next (.done, t) ∧ t.key k = false ∧ (∀ j, j ≠ k → t.key j = s.key j) ∧ t.pc = s.pc ∧
      Frame [] [.keys] s t)

/-- The outputs (R24): `fb_out` row-major (the spec's decision D24), `waiting`, `tone` the level ST != 0 (D28), and the fault
code, which is never 3. -/
def Obligations.PortsShowTheState : Prop :=
  ∀ s : State,
    (∀ (cx : Fin 64) (cy : Fin 32), s.fbOut.getLsbD (64 * cy.val + cx.val) = s.pixel cx cy) ∧
    s.waitingOut = s.waiting ∧ (s.tone = true ↔ s.st.toNat ≠ 0) ∧
    (s.faultOut = 0 ↔ s.fault = .none) ∧ (s.faultOut = 1 ↔ s.fault = .stackOverflow) ∧
    (s.faultOut = 2 ↔ s.fault = .stackUnderflow) ∧ s.faultOut ≠ 3

/-- Only `reset` takes a machine out of the faulted state (R154, R155, the spec's decision D23). -/
def Obligations.OnlyResetClearsAFault : Prop :=
  ∀ (s t : State) (c : Command) (r : Response), s.fault ≠ .none → perform c s = .next (r, t) →
    (c = .reset → t.fault = .none) ∧ (c ≠ .reset → t.fault = s.fault)

/-- The result of a `step` command (R160): STEP_OK unless the machine is faulted after it, and the `rand` presented with
the command is gone after it. -/
def Obligations.StepResultTellsTheFault : Prop :=
  ∀ (s t : State) (rand : Byte) (r : Response), stepCommand rand s = .next (r, t) →
    (r = .stepOk ↔ t.fault = .none) ∧ (∀ c, r = .stepFault c ↔ c ≠ .none ∧ t.fault = c) ∧ t.randIn = s.randIn

/-- The signal-level loader, one load-byte edge per byte after a length check, is `load_program` (10_state.md R25,
informative there; log 8). -/
def Obligations.LoadEdgesAreLoadProgram : Prop :=
  ∀ (rom : List Byte) (s : State), loadByEdges rom s = perform (.loadProgram rom) s
end

