-- ==== Sys2Proof/Laws/Decode.lean ====
section
/-! SUPPORT. The fields of a word as numbers, and of the words the encoder makes (spec 30_encoding.md R61, R62). -/

namespace Sys2Proof

/-! ### Fields as numbers -/

theorem fieldOp_toNat (w : Word) : (fieldOp w).toNat = w.toNat / 4096 := by
  have := w.isLt
  simp [fieldOp, Nat.shiftRight_eq_div_pow]; omega

theorem fieldX_val (w : Word) : (fieldX w).val = w.toNat / 256 % 16 := by
  simp [fieldX, Nat.shiftRight_eq_div_pow]

theorem fieldY_val (w : Word) : (fieldY w).val = w.toNat / 16 % 16 := by
  simp [fieldY, Nat.shiftRight_eq_div_pow]

theorem fieldN_val (w : Word) : (fieldN w).val = w.toNat % 16 := by
  simp [fieldN]

theorem fieldKk_toNat (w : Word) : (fieldKk w).toNat = w.toNat % 256 := by
  simp [fieldKk]

theorem fieldNnn_toNat (w : Word) : (fieldNnn w).toNat = w.toNat % 4096 := by
  simp [fieldNnn]

/-! ### Words as numbers -/

theorem append_toNat {m n : Nat} (a : BitVec m) (b : BitVec n) : (a ++ b).toNat = a.toNat * 2 ^ n + b.toNat := by
  rw [BitVec.toNat_append, ← Nat.shiftLeft_add_eq_or_of_lt b.isLt, Nat.shiftLeft_eq]

theorem wordNnn_toNat (op : BitVec 4) (nnn : Addr12) : (wordNnn op nnn).toNat = 4096 * op.toNat + nnn.toNat := by
  unfold wordNnn; rw [append_toNat]; omega

theorem wordXkk_toNat (op : BitVec 4) (x : Reg) (kk : Byte) :
    (wordXkk op x kk).toNat = 4096 * op.toNat + 256 * x.val + kk.toNat := by
  have := x.isLt
  unfold wordXkk; rw [append_toNat, append_toNat, BitVec.toNat_ofNat]; omega

theorem wordXyn_toNat (op : BitVec 4) (x y n : Fin 16) :
    (wordXyn op x y n).toNat = 4096 * op.toNat + 256 * x.val + 16 * y.val + n.val := by
  have := x.isLt
  have := y.isLt
  have := n.isLt
  unfold wordXyn; rw [append_toNat, append_toNat, append_toNat, BitVec.toNat_ofNat, BitVec.toNat_ofNat, BitVec.toNat_ofNat]
  omega

theorem fields_wordNnn (op : BitVec 4) (nnn : Addr12) :
    fieldOp (wordNnn op nnn) = op ∧ fieldNnn (wordNnn op nnn) = nnn := by
  have := wordNnn_toNat op nnn
  have := nnn.isLt
  exact ⟨BitVec.eq_of_toNat_eq (by rw [fieldOp_toNat]; omega), BitVec.eq_of_toNat_eq (by rw [fieldNnn_toNat]; omega)⟩

theorem fields_wordXkk (op : BitVec 4) (x : Reg) (kk : Byte) :
    fieldOp (wordXkk op x kk) = op ∧ fieldX (wordXkk op x kk) = x ∧ fieldKk (wordXkk op x kk) = kk := by
  have := wordXkk_toNat op x kk
  have := x.isLt
  have := kk.isLt
  exact ⟨BitVec.eq_of_toNat_eq (by rw [fieldOp_toNat]; omega), Fin.ext (by rw [fieldX_val]; omega),
    BitVec.eq_of_toNat_eq (by rw [fieldKk_toNat]; omega)⟩

theorem fields_wordXyn (op : BitVec 4) (x y n : Fin 16) :
    fieldOp (wordXyn op x y n) = op ∧ fieldX (wordXyn op x y n) = x ∧ fieldY (wordXyn op x y n) = y ∧
      fieldN (wordXyn op x y n) = n := by
  have := wordXyn_toNat op x y n
  have := x.isLt
  have := y.isLt
  have := n.isLt
  exact ⟨BitVec.eq_of_toNat_eq (by rw [fieldOp_toNat]; omega), Fin.ext (by rw [fieldX_val]; omega),
    Fin.ext (by rw [fieldY_val]; omega), Fin.ext (by rw [fieldN_val]; omega)⟩

theorem wordOfBytes_toNat (hi lo : Byte) : (wordOfBytes hi lo).toNat = 256 * hi.toNat + lo.toNat := by
  unfold wordOfBytes; rw [append_toNat]; omega

/-- The two bytes of a word give the word back (20_memory.md R44). -/
theorem wordOfBytes_bytesOfWord (w : Word) : wordOfBytes (w.extractLsb' 8 8) (w.extractLsb' 0 8) = w := by
  apply BitVec.eq_of_toNat_eq
  have := w.isLt
  rw [wordOfBytes_toNat]
  simp [Nat.shiftRight_eq_div_pow]; omega

/-! ### Masks as numbers -/

theorem and_nibble (n m k : Nat) : (n &&& m) / 2 ^ k % 16 = (n / 2 ^ k % 16) &&& (m / 2 ^ k % 16) := by
  rw [Nat.and_div_two_pow, show 16 = 2 ^ 4 from rfl, Nat.and_mod_two_pow]

/-- Masking a nibble with F keeps it. -/
theorem and_nibble_full (n : Nat) : n % 16 &&& 15 = n % 16 := by
  simpa using Nat.and_two_pow_sub_one_eq_mod (n % 16) 4

/-- A masked word, nibble by nibble; with `and_nibble_full` each mask of R65 and R67 comes out as arithmetic. -/
theorem and_mask_toNat (w : Word) (m : Nat) (hm : m < 65536) : (w &&& BitVec.ofNat 16 m).toNat =
    4096 * ((w.toNat / 4096 % 16) &&& (m / 4096 % 16)) + 256 * ((w.toNat / 256 % 16) &&& (m / 256 % 16)) +
      16 * ((w.toNat / 16 % 16) &&& (m / 16 % 16)) + ((w.toNat % 16) &&& (m % 16)) := by
  have hw := w.isLt
  have e : (w &&& BitVec.ofNat 16 m).toNat = w.toNat &&& m := by
    rw [BitVec.toNat_and, BitVec.toNat_ofNat, Nat.mod_eq_of_lt hm]
  have hlt : (w.toNat &&& m) < 65536 := Nat.lt_of_le_of_lt Nat.and_le_right hm
  have h0 := and_nibble w.toNat m 0
  have h1 := and_nibble w.toNat m 4
  have h2 := and_nibble w.toNat m 8
  have h3 := and_nibble w.toNat m 12
  norm_num at h0 h1 h2 h3
  rw [e]; omega

theorem and_f000 (w : Word) : (w &&& 0xF000).toNat = 4096 * (w.toNat / 4096) := by
  have := w.isLt
  rw [show (0xF000 : Word) = BitVec.ofNat 16 0xF000 from rfl, and_mask_toNat _ _ (by decide)]
  norm_num [and_nibble_full]; omega

theorem and_f00f (w : Word) : (w &&& 0xF00F).toNat = 4096 * (w.toNat / 4096) + w.toNat % 16 := by
  have := w.isLt
  rw [show (0xF00F : Word) = BitVec.ofNat 16 0xF00F from rfl, and_mask_toNat _ _ (by decide)]
  norm_num [and_nibble_full]; omega

theorem and_f0ff (w : Word) : (w &&& 0xF0FF).toNat = 4096 * (w.toNat / 4096) + w.toNat % 256 := by
  have := w.isLt
  rw [show (0xF0FF : Word) = BitVec.ofNat 16 0xF0FF from rfl, and_mask_toNat _ _ (by decide)]
  norm_num [and_nibble_full]; omega

theorem and_ffff (w : Word) : (w &&& 0xFFFF).toNat = w.toNat := by
  have := w.isLt
  rw [show (0xFFFF : Word) = BitVec.ofNat 16 0xFFFF from rfl, and_mask_toNat _ _ (by decide)]
  norm_num [and_nibble_full]; omega

theorem and_fff0 (w : Word) : (w &&& 0xFFF0).toNat = 16 * (w.toNat / 16) := by
  have := w.isLt
  rw [show (0xFFF0 : Word) = BitVec.ofNat 16 0xFFF0 from rfl, and_mask_toNat _ _ (by decide)]
  norm_num [and_nibble_full]; omega

theorem and_ff0f (w : Word) : (w &&& 0xFF0F).toNat = 256 * (w.toNat / 256) + w.toNat % 16 := by
  have := w.isLt
  rw [show (0xFF0F : Word) = BitVec.ofNat 16 0xFF0F from rfl, and_mask_toNat _ _ (by decide)]
  norm_num [and_nibble_full]; omega

/-- Decoding two bytes is decoding their word. -/
theorem decode_cons_cons (hi lo : Byte) (rest : List Byte) :
    decode (hi :: lo :: rest) = match decodeWord (wordOfBytes hi lo) with
      | .ok i => .ok (i, rest)
      | .error e => .error e := rfl

end Sys2Proof
end

