-- ==== Sys2Proof/Laws/State.lean ====
section
/-! SUPPORT. What each update of the state does to each field: one lemma per field per update, true by
definition, so that no proof unfolds a record update. -/

namespace Sys2Proof.Machine

variable (s : State)

/-! ### `setV` -/

@[simp] theorem setV_mem (r : Reg) (b : Byte) : (s.setV r b).mem = s.mem := rfl
@[simp] theorem setV_v (r : Reg) (b : Byte) : (s.setV r b).v = s.v.set r b := rfl
@[simp] theorem setV_i (r : Reg) (b : Byte) : (s.setV r b).i = s.i := rfl
@[simp] theorem setV_pc (r : Reg) (b : Byte) : (s.setV r b).pc = s.pc := rfl
@[simp] theorem setV_sp (r : Reg) (b : Byte) : (s.setV r b).sp = s.sp := rfl
@[simp] theorem setV_stack (r : Reg) (b : Byte) : (s.setV r b).stack = s.stack := rfl
@[simp] theorem setV_dt (r : Reg) (b : Byte) : (s.setV r b).dt = s.dt := rfl
@[simp] theorem setV_st (r : Reg) (b : Byte) : (s.setV r b).st = s.st := rfl
@[simp] theorem setV_fb (r : Reg) (b : Byte) : (s.setV r b).fb = s.fb := rfl
@[simp] theorem setV_keys (r : Reg) (b : Byte) : (s.setV r b).keys = s.keys := rfl
@[simp] theorem setV_waiting (r : Reg) (b : Byte) : (s.setV r b).waiting = s.waiting := rfl
@[simp] theorem setV_fault (r : Reg) (b : Byte) : (s.setV r b).fault = s.fault := rfl
@[simp] theorem setV_randIn (r : Reg) (b : Byte) : (s.setV r b).randIn = s.randIn := rfl
@[simp] theorem setV_draws (r : Reg) (b : Byte) : (s.setV r b).draws = s.draws := rfl

/-! ### `setI` -/

@[simp] theorem setI_mem (w : Word) : (s.setI w).mem = s.mem := rfl
@[simp] theorem setI_v (w : Word) : (s.setI w).v = s.v := rfl
@[simp] theorem setI_i (w : Word) : (s.setI w).i = w := rfl
@[simp] theorem setI_pc (w : Word) : (s.setI w).pc = s.pc := rfl
@[simp] theorem setI_sp (w : Word) : (s.setI w).sp = s.sp := rfl
@[simp] theorem setI_stack (w : Word) : (s.setI w).stack = s.stack := rfl
@[simp] theorem setI_dt (w : Word) : (s.setI w).dt = s.dt := rfl
@[simp] theorem setI_st (w : Word) : (s.setI w).st = s.st := rfl
@[simp] theorem setI_fb (w : Word) : (s.setI w).fb = s.fb := rfl
@[simp] theorem setI_keys (w : Word) : (s.setI w).keys = s.keys := rfl
@[simp] theorem setI_waiting (w : Word) : (s.setI w).waiting = s.waiting := rfl
@[simp] theorem setI_fault (w : Word) : (s.setI w).fault = s.fault := rfl
@[simp] theorem setI_randIn (w : Word) : (s.setI w).randIn = s.randIn := rfl
@[simp] theorem setI_draws (w : Word) : (s.setI w).draws = s.draws := rfl

/-! ### `setPc` -/

@[simp] theorem setPc_mem (w : Word) : (s.setPc w).mem = s.mem := rfl
@[simp] theorem setPc_v (w : Word) : (s.setPc w).v = s.v := rfl
@[simp] theorem setPc_i (w : Word) : (s.setPc w).i = s.i := rfl
@[simp] theorem setPc_pc (w : Word) : (s.setPc w).pc = w := rfl
@[simp] theorem setPc_sp (w : Word) : (s.setPc w).sp = s.sp := rfl
@[simp] theorem setPc_stack (w : Word) : (s.setPc w).stack = s.stack := rfl
@[simp] theorem setPc_dt (w : Word) : (s.setPc w).dt = s.dt := rfl
@[simp] theorem setPc_st (w : Word) : (s.setPc w).st = s.st := rfl
@[simp] theorem setPc_fb (w : Word) : (s.setPc w).fb = s.fb := rfl
@[simp] theorem setPc_keys (w : Word) : (s.setPc w).keys = s.keys := rfl
@[simp] theorem setPc_waiting (w : Word) : (s.setPc w).waiting = s.waiting := rfl
@[simp] theorem setPc_fault (w : Word) : (s.setPc w).fault = s.fault := rfl
@[simp] theorem setPc_randIn (w : Word) : (s.setPc w).randIn = s.randIn := rfl
@[simp] theorem setPc_draws (w : Word) : (s.setPc w).draws = s.draws := rfl

/-! ### `setDt` -/

@[simp] theorem setDt_mem (b : Byte) : (s.setDt b).mem = s.mem := rfl
@[simp] theorem setDt_v (b : Byte) : (s.setDt b).v = s.v := rfl
@[simp] theorem setDt_i (b : Byte) : (s.setDt b).i = s.i := rfl
@[simp] theorem setDt_pc (b : Byte) : (s.setDt b).pc = s.pc := rfl
@[simp] theorem setDt_sp (b : Byte) : (s.setDt b).sp = s.sp := rfl
@[simp] theorem setDt_stack (b : Byte) : (s.setDt b).stack = s.stack := rfl
@[simp] theorem setDt_dt (b : Byte) : (s.setDt b).dt = b := rfl
@[simp] theorem setDt_st (b : Byte) : (s.setDt b).st = s.st := rfl
@[simp] theorem setDt_fb (b : Byte) : (s.setDt b).fb = s.fb := rfl
@[simp] theorem setDt_keys (b : Byte) : (s.setDt b).keys = s.keys := rfl
@[simp] theorem setDt_waiting (b : Byte) : (s.setDt b).waiting = s.waiting := rfl
@[simp] theorem setDt_fault (b : Byte) : (s.setDt b).fault = s.fault := rfl
@[simp] theorem setDt_randIn (b : Byte) : (s.setDt b).randIn = s.randIn := rfl
@[simp] theorem setDt_draws (b : Byte) : (s.setDt b).draws = s.draws := rfl

/-! ### `setSt` -/

@[simp] theorem setSt_mem (b : Byte) : (s.setSt b).mem = s.mem := rfl
@[simp] theorem setSt_v (b : Byte) : (s.setSt b).v = s.v := rfl
@[simp] theorem setSt_i (b : Byte) : (s.setSt b).i = s.i := rfl
@[simp] theorem setSt_pc (b : Byte) : (s.setSt b).pc = s.pc := rfl
@[simp] theorem setSt_sp (b : Byte) : (s.setSt b).sp = s.sp := rfl
@[simp] theorem setSt_stack (b : Byte) : (s.setSt b).stack = s.stack := rfl
@[simp] theorem setSt_dt (b : Byte) : (s.setSt b).dt = s.dt := rfl
@[simp] theorem setSt_st (b : Byte) : (s.setSt b).st = b := rfl
@[simp] theorem setSt_fb (b : Byte) : (s.setSt b).fb = s.fb := rfl
@[simp] theorem setSt_keys (b : Byte) : (s.setSt b).keys = s.keys := rfl
@[simp] theorem setSt_waiting (b : Byte) : (s.setSt b).waiting = s.waiting := rfl
@[simp] theorem setSt_fault (b : Byte) : (s.setSt b).fault = s.fault := rfl
@[simp] theorem setSt_randIn (b : Byte) : (s.setSt b).randIn = s.randIn := rfl
@[simp] theorem setSt_draws (b : Byte) : (s.setSt b).draws = s.draws := rfl

/-! ### `setWaiting` -/

@[simp] theorem setWaiting_mem (b : Bool) : (s.setWaiting b).mem = s.mem := rfl
@[simp] theorem setWaiting_v (b : Bool) : (s.setWaiting b).v = s.v := rfl
@[simp] theorem setWaiting_i (b : Bool) : (s.setWaiting b).i = s.i := rfl
@[simp] theorem setWaiting_pc (b : Bool) : (s.setWaiting b).pc = s.pc := rfl
@[simp] theorem setWaiting_sp (b : Bool) : (s.setWaiting b).sp = s.sp := rfl
@[simp] theorem setWaiting_stack (b : Bool) : (s.setWaiting b).stack = s.stack := rfl
@[simp] theorem setWaiting_dt (b : Bool) : (s.setWaiting b).dt = s.dt := rfl
@[simp] theorem setWaiting_st (b : Bool) : (s.setWaiting b).st = s.st := rfl
@[simp] theorem setWaiting_fb (b : Bool) : (s.setWaiting b).fb = s.fb := rfl
@[simp] theorem setWaiting_keys (b : Bool) : (s.setWaiting b).keys = s.keys := rfl
@[simp] theorem setWaiting_waiting (b : Bool) : (s.setWaiting b).waiting = b := rfl
@[simp] theorem setWaiting_fault (b : Bool) : (s.setWaiting b).fault = s.fault := rfl
@[simp] theorem setWaiting_randIn (b : Bool) : (s.setWaiting b).randIn = s.randIn := rfl
@[simp] theorem setWaiting_draws (b : Bool) : (s.setWaiting b).draws = s.draws := rfl

/-! ### `setKeyBit` -/

@[simp] theorem setKeyBit_mem (k : Fin 16) (b : Bool) : (s.setKeyBit k b).mem = s.mem := rfl
@[simp] theorem setKeyBit_v (k : Fin 16) (b : Bool) : (s.setKeyBit k b).v = s.v := rfl
@[simp] theorem setKeyBit_i (k : Fin 16) (b : Bool) : (s.setKeyBit k b).i = s.i := rfl
@[simp] theorem setKeyBit_pc (k : Fin 16) (b : Bool) : (s.setKeyBit k b).pc = s.pc := rfl
@[simp] theorem setKeyBit_sp (k : Fin 16) (b : Bool) : (s.setKeyBit k b).sp = s.sp := rfl
@[simp] theorem setKeyBit_stack (k : Fin 16) (b : Bool) : (s.setKeyBit k b).stack = s.stack := rfl
@[simp] theorem setKeyBit_dt (k : Fin 16) (b : Bool) : (s.setKeyBit k b).dt = s.dt := rfl
@[simp] theorem setKeyBit_st (k : Fin 16) (b : Bool) : (s.setKeyBit k b).st = s.st := rfl
@[simp] theorem setKeyBit_fb (k : Fin 16) (b : Bool) : (s.setKeyBit k b).fb = s.fb := rfl
@[simp] theorem setKeyBit_keys (k : Fin 16) (b : Bool) : (s.setKeyBit k b).keys = s.keys.set k b := rfl
@[simp] theorem setKeyBit_waiting (k : Fin 16) (b : Bool) : (s.setKeyBit k b).waiting = s.waiting := rfl
@[simp] theorem setKeyBit_fault (k : Fin 16) (b : Bool) : (s.setKeyBit k b).fault = s.fault := rfl
@[simp] theorem setKeyBit_randIn (k : Fin 16) (b : Bool) : (s.setKeyBit k b).randIn = s.randIn := rfl
@[simp] theorem setKeyBit_draws (k : Fin 16) (b : Bool) : (s.setKeyBit k b).draws = s.draws := rfl

/-! ### `push` -/

@[simp] theorem push_mem (w : Word) : (s.push w).mem = s.mem := rfl
@[simp] theorem push_v (w : Word) : (s.push w).v = s.v := rfl
@[simp] theorem push_i (w : Word) : (s.push w).i = s.i := rfl
@[simp] theorem push_pc (w : Word) : (s.push w).pc = s.pc := rfl
@[simp] theorem push_sp (w : Word) : (s.push w).sp = s.sp + 1 := rfl
@[simp] theorem push_stack (w : Word) : (s.push w).stack = s.stack.set (s.sp + 1 : Fin 16).val w := rfl
@[simp] theorem push_dt (w : Word) : (s.push w).dt = s.dt := rfl
@[simp] theorem push_st (w : Word) : (s.push w).st = s.st := rfl
@[simp] theorem push_fb (w : Word) : (s.push w).fb = s.fb := rfl
@[simp] theorem push_keys (w : Word) : (s.push w).keys = s.keys := rfl
@[simp] theorem push_waiting (w : Word) : (s.push w).waiting = s.waiting := rfl
@[simp] theorem push_fault (w : Word) : (s.push w).fault = s.fault := rfl
@[simp] theorem push_randIn (w : Word) : (s.push w).randIn = s.randIn := rfl
@[simp] theorem push_draws (w : Word) : (s.push w).draws = s.draws := rfl

/-! ### `pop` -/

@[simp] theorem pop_mem : (s.pop).mem = s.mem := rfl
@[simp] theorem pop_v : (s.pop).v = s.v := rfl
@[simp] theorem pop_i : (s.pop).i = s.i := rfl
@[simp] theorem pop_pc : (s.pop).pc = s.pc := rfl
@[simp] theorem pop_sp : (s.pop).sp = s.sp - 1 := rfl
@[simp] theorem pop_stack : (s.pop).stack = s.stack := rfl
@[simp] theorem pop_dt : (s.pop).dt = s.dt := rfl
@[simp] theorem pop_st : (s.pop).st = s.st := rfl
@[simp] theorem pop_fb : (s.pop).fb = s.fb := rfl
@[simp] theorem pop_keys : (s.pop).keys = s.keys := rfl
@[simp] theorem pop_waiting : (s.pop).waiting = s.waiting := rfl
@[simp] theorem pop_fault : (s.pop).fault = s.fault := rfl
@[simp] theorem pop_randIn : (s.pop).randIn = s.randIn := rfl
@[simp] theorem pop_draws : (s.pop).draws = s.draws := rfl

/-! ### `setFb` -/

@[simp] theorem setFb_mem (d : Display) : (s.setFb d).mem = s.mem := rfl
@[simp] theorem setFb_v (d : Display) : (s.setFb d).v = s.v := rfl
@[simp] theorem setFb_i (d : Display) : (s.setFb d).i = s.i := rfl
@[simp] theorem setFb_pc (d : Display) : (s.setFb d).pc = s.pc := rfl
@[simp] theorem setFb_sp (d : Display) : (s.setFb d).sp = s.sp := rfl
@[simp] theorem setFb_stack (d : Display) : (s.setFb d).stack = s.stack := rfl
@[simp] theorem setFb_dt (d : Display) : (s.setFb d).dt = s.dt := rfl
@[simp] theorem setFb_st (d : Display) : (s.setFb d).st = s.st := rfl
@[simp] theorem setFb_fb (d : Display) : (s.setFb d).fb = d := rfl
@[simp] theorem setFb_keys (d : Display) : (s.setFb d).keys = s.keys := rfl
@[simp] theorem setFb_waiting (d : Display) : (s.setFb d).waiting = s.waiting := rfl
@[simp] theorem setFb_fault (d : Display) : (s.setFb d).fault = s.fault := rfl
@[simp] theorem setFb_randIn (d : Display) : (s.setFb d).randIn = s.randIn := rfl
@[simp] theorem setFb_draws (d : Display) : (s.setFb d).draws = s.draws := rfl

/-! ### `raise` -/

@[simp] theorem raise_mem (c : FaultCode) : (s.raise c).mem = s.mem := rfl
@[simp] theorem raise_v (c : FaultCode) : (s.raise c).v = s.v := rfl
@[simp] theorem raise_i (c : FaultCode) : (s.raise c).i = s.i := rfl
@[simp] theorem raise_pc (c : FaultCode) : (s.raise c).pc = s.pc := rfl
@[simp] theorem raise_sp (c : FaultCode) : (s.raise c).sp = s.sp := rfl
@[simp] theorem raise_stack (c : FaultCode) : (s.raise c).stack = s.stack := rfl
@[simp] theorem raise_dt (c : FaultCode) : (s.raise c).dt = s.dt := rfl
@[simp] theorem raise_st (c : FaultCode) : (s.raise c).st = s.st := rfl
@[simp] theorem raise_fb (c : FaultCode) : (s.raise c).fb = s.fb := rfl
@[simp] theorem raise_keys (c : FaultCode) : (s.raise c).keys = s.keys := rfl
@[simp] theorem raise_waiting (c : FaultCode) : (s.raise c).waiting = s.waiting := rfl
@[simp] theorem raise_fault (c : FaultCode) : (s.raise c).fault = c := rfl
@[simp] theorem raise_randIn (c : FaultCode) : (s.raise c).randIn = s.randIn := rfl
@[simp] theorem raise_draws (c : FaultCode) : (s.raise c).draws = s.draws := rfl

/-! ### `memWrite` -/

@[simp] theorem memWrite_mem (a : Nat) (b : Byte) : (s.memWrite a b).mem = s.mem.write (a % Config.memSize) b := rfl
@[simp] theorem memWrite_v (a : Nat) (b : Byte) : (s.memWrite a b).v = s.v := rfl
@[simp] theorem memWrite_i (a : Nat) (b : Byte) : (s.memWrite a b).i = s.i := rfl
@[simp] theorem memWrite_pc (a : Nat) (b : Byte) : (s.memWrite a b).pc = s.pc := rfl
@[simp] theorem memWrite_sp (a : Nat) (b : Byte) : (s.memWrite a b).sp = s.sp := rfl
@[simp] theorem memWrite_stack (a : Nat) (b : Byte) : (s.memWrite a b).stack = s.stack := rfl
@[simp] theorem memWrite_dt (a : Nat) (b : Byte) : (s.memWrite a b).dt = s.dt := rfl
@[simp] theorem memWrite_st (a : Nat) (b : Byte) : (s.memWrite a b).st = s.st := rfl
@[simp] theorem memWrite_fb (a : Nat) (b : Byte) : (s.memWrite a b).fb = s.fb := rfl
@[simp] theorem memWrite_keys (a : Nat) (b : Byte) : (s.memWrite a b).keys = s.keys := rfl
@[simp] theorem memWrite_waiting (a : Nat) (b : Byte) : (s.memWrite a b).waiting = s.waiting := rfl
@[simp] theorem memWrite_fault (a : Nat) (b : Byte) : (s.memWrite a b).fault = s.fault := rfl
@[simp] theorem memWrite_randIn (a : Nat) (b : Byte) : (s.memWrite a b).randIn = s.randIn := rfl
@[simp] theorem memWrite_draws (a : Nat) (b : Byte) : (s.memWrite a b).draws = s.draws := rfl

/-! ### `advance` -/

@[simp] theorem advance_mem : (s.advance).mem = s.mem := rfl
@[simp] theorem advance_v : (s.advance).v = s.v := rfl
@[simp] theorem advance_i : (s.advance).i = s.i := rfl
@[simp] theorem advance_pc : (s.advance).pc = s.pc + 2 := rfl
@[simp] theorem advance_sp : (s.advance).sp = s.sp := rfl
@[simp] theorem advance_stack : (s.advance).stack = s.stack := rfl
@[simp] theorem advance_dt : (s.advance).dt = s.dt := rfl
@[simp] theorem advance_st : (s.advance).st = s.st := rfl
@[simp] theorem advance_fb : (s.advance).fb = s.fb := rfl
@[simp] theorem advance_keys : (s.advance).keys = s.keys := rfl
@[simp] theorem advance_waiting : (s.advance).waiting = s.waiting := rfl
@[simp] theorem advance_fault : (s.advance).fault = s.fault := rfl
@[simp] theorem advance_randIn : (s.advance).randIn = s.randIn := rfl
@[simp] theorem advance_draws : (s.advance).draws = s.draws := rfl

/-! ### `skip` -/

@[simp] theorem skip_mem : (s.skip).mem = s.mem := rfl
@[simp] theorem skip_v : (s.skip).v = s.v := rfl
@[simp] theorem skip_i : (s.skip).i = s.i := rfl
@[simp] theorem skip_pc : (s.skip).pc = s.pc + 4 := rfl
@[simp] theorem skip_sp : (s.skip).sp = s.sp := rfl
@[simp] theorem skip_stack : (s.skip).stack = s.stack := rfl
@[simp] theorem skip_dt : (s.skip).dt = s.dt := rfl
@[simp] theorem skip_st : (s.skip).st = s.st := rfl
@[simp] theorem skip_fb : (s.skip).fb = s.fb := rfl
@[simp] theorem skip_keys : (s.skip).keys = s.keys := rfl
@[simp] theorem skip_waiting : (s.skip).waiting = s.waiting := rfl
@[simp] theorem skip_fault : (s.skip).fault = s.fault := rfl
@[simp] theorem skip_randIn : (s.skip).randIn = s.randIn := rfl
@[simp] theorem skip_draws : (s.skip).draws = s.draws := rfl

/-! ### The random input -/

@[simp] theorem setRandIn_mem (rs : List Byte) : (s.setRandIn rs).mem = s.mem := rfl
@[simp] theorem setRandIn_v (rs : List Byte) : (s.setRandIn rs).v = s.v := rfl
@[simp] theorem setRandIn_i (rs : List Byte) : (s.setRandIn rs).i = s.i := rfl
@[simp] theorem setRandIn_pc (rs : List Byte) : (s.setRandIn rs).pc = s.pc := rfl
@[simp] theorem setRandIn_sp (rs : List Byte) : (s.setRandIn rs).sp = s.sp := rfl
@[simp] theorem setRandIn_stack (rs : List Byte) : (s.setRandIn rs).stack = s.stack := rfl
@[simp] theorem setRandIn_dt (rs : List Byte) : (s.setRandIn rs).dt = s.dt := rfl
@[simp] theorem setRandIn_st (rs : List Byte) : (s.setRandIn rs).st = s.st := rfl
@[simp] theorem setRandIn_fb (rs : List Byte) : (s.setRandIn rs).fb = s.fb := rfl
@[simp] theorem setRandIn_keys (rs : List Byte) : (s.setRandIn rs).keys = s.keys := rfl
@[simp] theorem setRandIn_waiting (rs : List Byte) : (s.setRandIn rs).waiting = s.waiting := rfl
@[simp] theorem setRandIn_fault (rs : List Byte) : (s.setRandIn rs).fault = s.fault := rfl
@[simp] theorem setRandIn_randIn (rs : List Byte) : (s.setRandIn rs).randIn = rs := rfl
@[simp] theorem setRandIn_draws (rs : List Byte) : (s.setRandIn rs).draws = s.draws := rfl
@[simp] theorem takeRand_mem : s.takeRand.mem = s.mem := by unfold State.takeRand; split <;> rfl
@[simp] theorem takeRand_v : s.takeRand.v = s.v := by unfold State.takeRand; split <;> rfl
@[simp] theorem takeRand_i : s.takeRand.i = s.i := by unfold State.takeRand; split <;> rfl
@[simp] theorem takeRand_pc : s.takeRand.pc = s.pc := by unfold State.takeRand; split <;> rfl
@[simp] theorem takeRand_sp : s.takeRand.sp = s.sp := by unfold State.takeRand; split <;> rfl
@[simp] theorem takeRand_stack : s.takeRand.stack = s.stack := by unfold State.takeRand; split <;> rfl
@[simp] theorem takeRand_dt : s.takeRand.dt = s.dt := by unfold State.takeRand; split <;> rfl
@[simp] theorem takeRand_st : s.takeRand.st = s.st := by unfold State.takeRand; split <;> rfl
@[simp] theorem takeRand_fb : s.takeRand.fb = s.fb := by unfold State.takeRand; split <;> rfl
@[simp] theorem takeRand_keys : s.takeRand.keys = s.keys := by unfold State.takeRand; split <;> rfl
@[simp] theorem takeRand_waiting : s.takeRand.waiting = s.waiting := by unfold State.takeRand; split <;> rfl
@[simp] theorem takeRand_fault : s.takeRand.fault = s.fault := by unfold State.takeRand; split <;> rfl

@[simp] theorem randInput_setRandIn_cons (r : Byte) (rs : List Byte) : (s.setRandIn (r :: rs)).randInput = r := rfl
@[simp] theorem takeRand_setRandIn_cons (r : Byte) (rs : List Byte) : (s.setRandIn (r :: rs)).takeRand = s.setRandIn rs := rfl

/-! ### Two writes at once, and lists of bytes -/

@[simp] theorem setFlagThenV_mem (f : Byte) (x : Reg) (r : Byte) : (s.setFlagThenV f x r).mem = s.mem := rfl
@[simp] theorem setFlagThenV_v (f : Byte) (x : Reg) (r : Byte) : (s.setFlagThenV f x r).v = (s.v.set vF f).set x r := rfl
@[simp] theorem setFlagThenV_i (f : Byte) (x : Reg) (r : Byte) : (s.setFlagThenV f x r).i = s.i := rfl
@[simp] theorem setFlagThenV_pc (f : Byte) (x : Reg) (r : Byte) : (s.setFlagThenV f x r).pc = s.pc := rfl
@[simp] theorem setFlagThenV_sp (f : Byte) (x : Reg) (r : Byte) : (s.setFlagThenV f x r).sp = s.sp := rfl
@[simp] theorem setFlagThenV_stack (f : Byte) (x : Reg) (r : Byte) : (s.setFlagThenV f x r).stack = s.stack := rfl
@[simp] theorem setFlagThenV_dt (f : Byte) (x : Reg) (r : Byte) : (s.setFlagThenV f x r).dt = s.dt := rfl
@[simp] theorem setFlagThenV_st (f : Byte) (x : Reg) (r : Byte) : (s.setFlagThenV f x r).st = s.st := rfl
@[simp] theorem setFlagThenV_fb (f : Byte) (x : Reg) (r : Byte) : (s.setFlagThenV f x r).fb = s.fb := rfl
@[simp] theorem setFlagThenV_keys (f : Byte) (x : Reg) (r : Byte) : (s.setFlagThenV f x r).keys = s.keys := rfl
@[simp] theorem setFlagThenV_waiting (f : Byte) (x : Reg) (r : Byte) : (s.setFlagThenV f x r).waiting = s.waiting := rfl
@[simp] theorem setFlagThenV_fault (f : Byte) (x : Reg) (r : Byte) : (s.setFlagThenV f x r).fault = s.fault := rfl
@[simp] theorem setFlagThenV_randIn (f : Byte) (x : Reg) (r : Byte) : (s.setFlagThenV f x r).randIn = s.randIn := rfl
@[simp] theorem setFlagThenV_draws (f : Byte) (x : Reg) (r : Byte) : (s.setFlagThenV f x r).draws = s.draws := rfl

theorem memWriteList_eq (a : Nat) (bs : List Byte) :
    s.memWriteList a bs = { s with mem := (s.memWriteList a bs).mem } := by
  induction bs generalizing s a with
  | nil => rfl
  | cons b bs ih => simpa [State.memWriteList] using ih (s.memWrite a b) (a + 1)

@[simp] theorem memWriteList_v (a : Nat) (bs : List Byte) : (s.memWriteList a bs).v = s.v := by
  rw [memWriteList_eq]
@[simp] theorem memWriteList_i (a : Nat) (bs : List Byte) : (s.memWriteList a bs).i = s.i := by
  rw [memWriteList_eq]
@[simp] theorem memWriteList_pc (a : Nat) (bs : List Byte) : (s.memWriteList a bs).pc = s.pc := by
  rw [memWriteList_eq]
@[simp] theorem memWriteList_sp (a : Nat) (bs : List Byte) : (s.memWriteList a bs).sp = s.sp := by
  rw [memWriteList_eq]
@[simp] theorem memWriteList_stack (a : Nat) (bs : List Byte) : (s.memWriteList a bs).stack = s.stack := by
  rw [memWriteList_eq]
@[simp] theorem memWriteList_dt (a : Nat) (bs : List Byte) : (s.memWriteList a bs).dt = s.dt := by
  rw [memWriteList_eq]
@[simp] theorem memWriteList_st (a : Nat) (bs : List Byte) : (s.memWriteList a bs).st = s.st := by
  rw [memWriteList_eq]
@[simp] theorem memWriteList_fb (a : Nat) (bs : List Byte) : (s.memWriteList a bs).fb = s.fb := by
  rw [memWriteList_eq]
@[simp] theorem memWriteList_keys (a : Nat) (bs : List Byte) : (s.memWriteList a bs).keys = s.keys := by
  rw [memWriteList_eq]
@[simp] theorem memWriteList_waiting (a : Nat) (bs : List Byte) : (s.memWriteList a bs).waiting = s.waiting := by
  rw [memWriteList_eq]
@[simp] theorem memWriteList_fault (a : Nat) (bs : List Byte) : (s.memWriteList a bs).fault = s.fault := by
  rw [memWriteList_eq]
@[simp] theorem memWriteList_randIn (a : Nat) (bs : List Byte) : (s.memWriteList a bs).randIn = s.randIn := by
  rw [memWriteList_eq]
@[simp] theorem memWriteList_draws (a : Nat) (bs : List Byte) : (s.memWriteList a bs).draws = s.draws := by
  rw [memWriteList_eq]

end Sys2Proof.Machine
end

