-- ==== Sys2Proof/Laws/Memory.lean ====
section
/-! SUPPORT. The laws of memory: a read after a write, and that every memory operation keeps the canonical
form. -/

namespace Sys2Proof.Machine

/-! ### One byte -/

theorem read_without (m : Memory) (a c : Nat) :
    (m.without a).read c = if c = a then resetByte a else m.read c := by
  induction m with
  | nil => by_cases h : c = a <;> simp [Memory.without, Memory.read, h]
  | cons e m ih =>
    obtain ⟨k, b⟩ := e
    by_cases hk : k = a
    · have : Memory.without ((k, b) :: m) a = Memory.without m a := by simp [Memory.without, hk]
      rw [this, ih]
      by_cases hc : c = a
      · simp [hc]
      · have : k ≠ c := by omega
        simp [hc, Memory.read, this]
    · have : Memory.without ((k, b) :: m) a = (k, b) :: Memory.without m a := by simp [Memory.without, hk]
      rw [this]
      by_cases hkc : k = c
      · have : c ≠ a := by omega
        simp [Memory.read, hkc, this]
      · simp [Memory.read, hkc, ih]

theorem read_insert (m : Memory) (a c : Nat) (b : Byte) (h : ∀ e ∈ m, e.1 ≠ a) :
    (m.insertCell a b).read c = if c = a then b else m.read c := by
  induction m with
  | nil =>
    by_cases hc : c = a
    · simp [Memory.insertCell, Memory.read, hc]
    · have : a ≠ c := by omega
      simp [Memory.insertCell, Memory.read, hc, this]
  | cons e m ih =>
    obtain ⟨k, d⟩ := e
    have hk : k ≠ a := h (k, d) (by simp)
    have ih := ih fun e he => h e (by simp [he])
    by_cases hlt : a < k
    · by_cases hc : c = a
      · simp [Memory.insertCell, hlt, Memory.read, hc]
      · have : a ≠ c := by omega
        simp [Memory.insertCell, hlt, Memory.read, hc, this]
    · by_cases hkc : k = c
      · subst hkc
        simp [Memory.insertCell, hlt, Memory.read, hk]
      · simp [Memory.insertCell, hlt, Memory.read, hkc, ih]

theorem not_mem_without (m : Memory) (a : Nat) : ∀ e ∈ m.without a, e.1 ≠ a := by
  simp [Memory.without]

/-- Reading any address after a write, in canonical form or not. -/
theorem read_write (m : Memory) (a c : Nat) (b : Byte) :
    (m.write a b).read c = if c = a then b else m.read c := by
  unfold Memory.write
  split
  · next h => simp [read_without, h]
  · rw [read_insert _ _ _ _ (not_mem_without m a), read_without]
    split <;> rfl

/-- `MemRead` after `MemWrite` (20_memory.md R43, R48). -/
theorem memRead_memWrite (s : State) (a c : Nat) (b : Byte) :
    (s.memWrite a b).memRead c = if c % 4096 = a % 4096 then b else s.memRead c := by
  simp [State.memRead, Config.memSize, read_write]

/-- A read depends on the memory alone. -/
theorem memRead_congr {s t : State} (h : t.mem = s.mem) (a : Nat) : t.memRead a = s.memRead a := by
  simp [State.memRead, h]

/-- A read depends on the address modulo 4096 alone. -/
theorem memRead_mod (s : State) (a : Nat) : s.memRead (a % 4096) = s.memRead a := by
  simp [State.memRead, Config.memSize]

theorem memRead_eq_of_mod {a b : Nat} (s : State) (h : a % 4096 = b % 4096) : s.memRead a = s.memRead b := by
  simp [State.memRead, Config.memSize, h]

/-! ### A list of bytes -/

/-- Bytes outside the stored ones read as before. -/
theorem memRead_memWriteList_outside (s : State) (a c : Nat) (bs : List Byte)
    (h : ∀ k, k < bs.length → c % 4096 ≠ (a + k) % 4096) : (s.memWriteList a bs).memRead c = s.memRead c := by
  induction bs generalizing s a with
  | nil => rfl
  | cons b bs ih =>
    have h0 := h 0 (by simp)
    rw [State.memWriteList, ih, memRead_memWrite, if_neg (by simpa using h0)]
    intro k hk
    have := h (k + 1) (by simpa using hk)
    rwa [Nat.add_right_comm, Nat.add_assoc]

/-- At most 4096 stored bytes all read back, also where the addresses wrap. -/
theorem memRead_memWriteList (s : State) (a j : Nat) (bs : List Byte) (hl : bs.length ≤ 4096) (hj : j < bs.length) :
    (s.memWriteList a bs).memRead (a + j) = bs[j] := by
  induction bs generalizing s a j with
  | nil => simp at hj
  | cons b bs ih =>
    cases j with
    | zero =>
      rw [State.memWriteList, memRead_memWriteList_outside, memRead_memWrite, Nat.add_zero, if_pos rfl]
      · rfl
      · intro k hk
        simp only [List.length_cons] at hl
        omega
    | succ j =>
      have := ih (s.memWrite a b) (a + 1) j (by simp at hl; omega) (by simpa using hj)
      rw [State.memWriteList, show a + (j + 1) = a + 1 + j by omega, this]
      rfl

/-! ### The canonical form -/

theorem wfFrom_mono {m : Memory} {lo hi : Nat} (h : m.wfFrom hi = true) (hle : lo ≤ hi) : m.wfFrom lo = true := by
  cases m with
  | nil => rfl
  | cons e m =>
    obtain ⟨k, b⟩ := e
    simp only [Memory.wfFrom, Bool.and_eq_true, decide_eq_true_eq] at h ⊢
    exact ⟨⟨⟨by omega, h.1.1.2⟩, h.1.2⟩, h.2⟩

theorem wfFrom_without {m : Memory} {lo : Nat} (a : Nat) (h : m.wfFrom lo = true) : (m.without a).wfFrom lo = true := by
  induction m generalizing lo with
  | nil => rfl
  | cons e m ih =>
    obtain ⟨k, b⟩ := e
    simp only [Memory.wfFrom, Bool.and_eq_true, decide_eq_true_eq] at h
    by_cases hk : k = a
    · have : Memory.without ((k, b) :: m) a = Memory.without m a := by simp [Memory.without, hk]
      rw [this]
      exact wfFrom_mono (ih h.2) (Nat.le_succ_of_le h.1.1.1)
    · have : Memory.without ((k, b) :: m) a = (k, b) :: Memory.without m a := by simp [Memory.without, hk]
      rw [this]
      simp only [Memory.wfFrom, Bool.and_eq_true, decide_eq_true_eq]
      exact ⟨h.1, ih h.2⟩

theorem wfFrom_insert {m : Memory} {lo a : Nat} {b : Byte} (h : m.wfFrom lo = true) (hlo : lo ≤ a)
    (ha : a < Config.memSize) (hb : b ≠ resetByte a) (hm : ∀ e ∈ m, e.1 ≠ a) : (m.insertCell a b).wfFrom lo = true := by
  induction m generalizing lo with
  | nil => simp [Memory.insertCell, Memory.wfFrom, hlo, ha, hb]
  | cons e m ih =>
    obtain ⟨k, c⟩ := e
    have hk : k ≠ a := hm (k, c) (by simp)
    simp only [Memory.wfFrom, Bool.and_eq_true, decide_eq_true_eq] at h
    by_cases hlt : a < k
    · simp only [Memory.insertCell, hlt, if_true, Memory.wfFrom, Bool.and_eq_true, decide_eq_true_eq]
      exact ⟨⟨⟨hlo, ha⟩, hb⟩, ⟨⟨by omega, h.1.1.2⟩, h.1.2⟩, h.2⟩
    · simp only [Memory.insertCell, hlt, if_false, Memory.wfFrom, Bool.and_eq_true, decide_eq_true_eq]
      exact ⟨h.1, ih h.2 (by omega) fun e he => hm e (by simp [he])⟩

/-- A write at an address of the space keeps the canonical form. -/
theorem wf_write {m : Memory} {a : Nat} (b : Byte) (h : m.wf = true) (ha : a < Config.memSize) :
    (m.write a b).wf = true := by
  unfold Memory.write
  split
  · exact wfFrom_without a h
  · next hb => exact wfFrom_insert (wfFrom_without a h) (by omega) ha hb (not_mem_without m a)

theorem wf_memWrite {s : State} (a : Nat) (b : Byte) (h : s.mem.wf = true) : (s.memWrite a b).mem.wf = true :=
  wf_write b h (Nat.mod_lt _ (by decide))

theorem wf_memWriteList {s : State} (a : Nat) (bs : List Byte) (h : s.mem.wf = true) :
    (s.memWriteList a bs).mem.wf = true := by
  induction bs generalizing s a with
  | nil => exact h
  | cons b bs ih => exact ih (a + 1) (wf_memWrite a b h)

theorem wf_reset : State.reset.mem.wf = true := rfl

/-- The canonical form is canonical: two such memories that read alike from an address on are one list. -/
theorem eq_of_read_eq {m n : Memory} {lo : Nat} (hm : m.wfFrom lo = true) (hn : n.wfFrom lo = true)
    (h : ∀ a, lo ≤ a → m.read a = n.read a) : m = n := by
  have unlisted : ∀ (p : Memory) (hi c : Nat), p.wfFrom hi = true → c < hi → p.read c = resetByte c := by
    intro p
    induction p with
    | nil => intros; rfl
    | cons e p ih =>
      obtain ⟨k, b⟩ := e
      intro hi c hp hc
      simp only [Memory.wfFrom, Bool.and_eq_true, decide_eq_true_eq] at hp
      have : k ≠ c := by omega
      simp [Memory.read, this, ih (k + 1) c hp.2 (by omega)]
  induction m generalizing n lo with
  | nil =>
    cases n with
    | nil => rfl
    | cons e n =>
      obtain ⟨k, b⟩ := e
      simp only [Memory.wfFrom, Bool.and_eq_true, decide_eq_true_eq] at hn
      have := h k (by omega)
      simp [Memory.read] at this
      exact absurd this.symm hn.1.2
  | cons e m ih =>
    obtain ⟨k, b⟩ := e
    simp only [Memory.wfFrom, Bool.and_eq_true, decide_eq_true_eq] at hm
    cases n with
    | nil =>
      have := h k (by omega)
      simp [Memory.read] at this
      exact absurd this hm.1.2
    | cons e' n =>
      obtain ⟨k', b'⟩ := e'
      simp only [Memory.wfFrom, Bool.and_eq_true, decide_eq_true_eq] at hn
      have hk : k = k' := by
        rcases Nat.lt_trichotomy k k' with hlt | heq | hlt
        · have h1 := h k (by omega)
          have hne : k' ≠ k := by omega
          simp [Memory.read, hne, unlisted n (k' + 1) k hn.2 (by omega)] at h1
          exact absurd h1 hm.1.2
        · exact heq
        · have h1 := h k' (by omega)
          have hne : k ≠ k' := by omega
          simp [Memory.read, hne, unlisted m (k + 1) k' hm.2 (by omega)] at h1
          exact absurd h1.symm hn.1.2
      subst hk
      have hb : b = b' := by simpa [Memory.read] using h k (by omega)
      subst hb
      congr 1
      refine ih hm.2 hn.2 fun a ha => ?_
      have h1 := h a (by omega)
      have hne : k ≠ a := by omega
      simpa [Memory.read, hne] using h1

/-- Two canonical memories that read alike are equal. -/
theorem memory_ext {m n : Memory} (hm : m.wf = true) (hn : n.wf = true) (h : ∀ a, m.read a = n.read a) : m = n :=
  eq_of_read_eq hm hn fun a _ => h a

end Sys2Proof.Machine
end

