-- ==== Sys2Proof/Laws/Ops.lean ====
section
/-! SUPPORT. One lemma for each shared operation over registers, the stack, the keys, PC and the operands: what
it reads as afterwards. -/

namespace Sys2Proof.Machine

/-! ### Registers, slots, keys -/

@[simp] theorem getV_setV (s : State) (r q : Reg) (b : Byte) :
    (s.setV r b).getV q = if q = r then b else s.getV q := by
  by_cases h : q = r
  · subst h; simp [State.getV, State.setV]
  · have h' : r.val ≠ q.val := fun e => h (Fin.ext e.symm)
    simp [State.getV, State.setV, h, h']

theorem getV_congr {s t : State} (h : t.v = s.v) (r : Reg) : t.getV r = s.getV r := by simp [State.getV, h]

@[simp] theorem getV_setI (s : State) (w : Word) (r : Reg) : (s.setI w).getV r = s.getV r := rfl
@[simp] theorem getV_setPc (s : State) (w : Word) (r : Reg) : (s.setPc w).getV r = s.getV r := rfl
@[simp] theorem getV_setDt (s : State) (b : Byte) (r : Reg) : (s.setDt b).getV r = s.getV r := rfl
@[simp] theorem getV_setSt (s : State) (b : Byte) (r : Reg) : (s.setSt b).getV r = s.getV r := rfl
@[simp] theorem getV_setWaiting (s : State) (b : Bool) (r : Reg) : (s.setWaiting b).getV r = s.getV r := rfl
@[simp] theorem getV_setKeyBit (s : State) (k : Fin 16) (b : Bool) (r : Reg) : (s.setKeyBit k b).getV r = s.getV r := rfl
@[simp] theorem getV_push (s : State) (w : Word) (r : Reg) : (s.push w).getV r = s.getV r := rfl
@[simp] theorem getV_pop (s : State) (r : Reg) : s.pop.getV r = s.getV r := rfl
@[simp] theorem getV_setFb (s : State) (d : Display) (r : Reg) : (s.setFb d).getV r = s.getV r := rfl
@[simp] theorem getV_raise (s : State) (c : FaultCode) (r : Reg) : (s.raise c).getV r = s.getV r := rfl
@[simp] theorem getV_memWrite (s : State) (a : Nat) (b : Byte) (r : Reg) : (s.memWrite a b).getV r = s.getV r := rfl
@[simp] theorem getV_memWriteList (s : State) (a : Nat) (bs : List Byte) (r : Reg) :
    (s.memWriteList a bs).getV r = s.getV r := getV_congr (memWriteList_v s a bs) r
@[simp] theorem getV_setRandIn (s : State) (rs : List Byte) (r : Reg) : (s.setRandIn rs).getV r = s.getV r := rfl
@[simp] theorem getV_takeRand (s : State) (r : Reg) : s.takeRand.getV r = s.getV r := getV_congr (takeRand_v s) r
@[simp] theorem getV_advance (s : State) (r : Reg) : s.advance.getV r = s.getV r := rfl
@[simp] theorem getV_skip (s : State) (r : Reg) : s.skip.getV r = s.getV r := rfl

/-- The result is written last and wins over the flag (42_alu.md R100). -/
@[simp] theorem getV_setFlagThenV (s : State) (f : Byte) (x : Reg) (r : Byte) (q : Reg) :
    (s.setFlagThenV f x r).getV q = if q = x then r else if q = vF then f else s.getV q := by
  simp [State.setFlagThenV]

theorem slot_congr {s t : State} (h : t.stack = s.stack) (j : Fin 16) : t.slot j = s.slot j := by
  simp [State.slot, h]

@[simp] theorem slot_push (s : State) (w : Word) (j : Fin 16) :
    (s.push w).slot j = if j = s.sp + 1 then w else s.slot j := by
  by_cases h : j = s.sp + 1
  · subst h; simp [State.slot, State.push]
  · have h' : (s.sp + 1 : Fin 16).val ≠ j.val := fun e => h (Fin.ext e.symm)
    simp only [State.slot, State.push, h, if_false]
    exact Vector.getElem_set_ne _ _ h'

@[simp] theorem slot_pop (s : State) (j : Fin 16) : s.pop.slot j = s.slot j := rfl

theorem key_congr {s t : State} (h : t.keys = s.keys) (k : Fin 16) : t.key k = s.key k := by simp [State.key, h]

@[simp] theorem key_setKeyBit (s : State) (k j : Fin 16) (b : Bool) :
    (s.setKeyBit k b).key j = if j = k then b else s.key j := by
  by_cases h : j = k
  · subst h; simp [State.key, State.setKeyBit]
  · have h' : k.val ≠ j.val := fun e => h (Fin.ext e.symm)
    simp [State.key, State.setKeyBit, h, h']

theorem pixel_congr {s t : State} (h : t.fb = s.fb) (cx : Fin 64) (cy : Fin 32) : t.pixel cx cy = s.pixel cx cy := by
  simp [State.pixel, h]

/-! ### Frames: what fields agree is what reads agree -/

/-- A frame from equal fields. -/
theorem frame_of_fields {s t : State} {rs : List Reg} {ps : List Piece}
    (hv : ∀ r, r ∉ rs → t.getV r = s.getV r) (hmem : .mem ∉ ps → t.mem = s.mem) (hi : .i ∉ ps → t.i = s.i)
    (hsp : .stack ∉ ps → t.sp = s.sp ∧ t.stack = s.stack) (hdt : .dt ∉ ps → t.dt = s.dt) (hst : .st ∉ ps → t.st = s.st)
    (hfb : .fb ∉ ps → t.fb = s.fb) (hkeys : .keys ∉ ps → t.keys = s.keys) (hw : .waiting ∉ ps → t.waiting = s.waiting)
    (hf : .fault ∉ ps → t.fault = s.fault) (hr : .rand ∉ ps → t.randIn = s.randIn ∧ t.draws = s.draws) :
    Frame rs ps s t := by
  refine ⟨hv, fun p hp => ?_⟩
  cases p with
  | mem => exact memRead_congr (hmem hp)
  | i => exact hi hp
  | stack => exact ⟨(hsp hp).1, slot_congr (hsp hp).2⟩
  | dt => exact hdt hp
  | st => exact hst hp
  | fb => exact pixel_congr (hfb hp)
  | keys => exact key_congr (hkeys hp)
  | waiting => exact hw hp
  | fault => exact hf hp
  | rand => exact hr hp

/-! ### The program counter -/

theorem pcPlus_advance (s : State) : PcPlus 2 s s.advance := by simp [PcPlus, BitVec.toNat_add]

theorem pcPlus_skip (s : State) : PcPlus 4 s s.skip := by simp [PcPlus, BitVec.toNat_add]

theorem pcPlus_congr {d : Nat} {s t u : State} (h : t.pc = s.pc) (hu : PcPlus d t u) : PcPlus d s u := by
  simpa [PcPlus, h] using hu

theorem skipsIff_skipIf (s : State) (c : Bool) : SkipsIff (c = true) s (s.skipIf c) := by
  cases c <;> simp [SkipsIff, State.skipIf, pcPlus_advance, pcPlus_skip]

theorem skipIf_frame (s : State) (c : Bool) : Frame [] [] s (s.skipIf c) := by
  cases c <;> simp [State.skipIf] <;> exact frame_of_fields (by simp) (by simp) (by simp) (by simp) (by simp) (by simp)
    (by simp) (by simp) (by simp) (by simp) (by simp)

/-! ### Operands -/

@[simp] theorem zextAddr_toNat (nnn : Addr12) : (zextAddr nnn).toNat = nnn.toNat := by
  have := nnn.isLt
  simp [zextAddr]; omega

@[simp] theorem zextByte_toNat (b : Byte) : (zextByte b).toNat = b.toNat := by
  have := b.isLt
  simp [zextByte]; omega

@[simp] theorem lowNibble_val (b : Byte) : (lowNibble b).val = b.toNat % 16 := by
  simp [lowNibble]

@[simp] theorem glyphAddr_toNat (d : Fin 16) : (glyphAddr d).toNat = 5 * d.val := by
  have := d.isLt
  simp [glyphAddr, fontBase]; omega

@[simp] theorem keyByte_toNat (k : Fin 16) : (keyByte k).toNat = k.val := by
  have := k.isLt
  simp [keyByte]; omega

theorem lowestHeldKey_eq_none {s : State} : s.lowestHeldKey = none ↔ ∀ k, s.key k = false := by
  simp [State.lowestHeldKey]

/-- The lowest held key is held, and no lower one is (45_timers_keys.md R141). -/
theorem lowestHeldKey_eq_some {s : State} {k : Fin 16} :
    s.lowestHeldKey = some k ↔ s.key k = true ∧ ∀ j, j < k → s.key j = false := by
  rw [State.lowestHeldKey, List.find?_eq_some_iff_getElem]
  constructor
  · rintro ⟨hk, i, hi, hik, hlt⟩
    simp only [List.getElem_finRange] at hik hlt
    refine ⟨hk, fun j hj => ?_⟩
    have := hlt j.val (by rw [← hik] at hj; simpa [Fin.lt_def] using hj)
    simpa using this
  · rintro ⟨hk, hlt⟩
    refine ⟨hk, k.val, by simp, by simp, fun j hj => ?_⟩
    simpa using hlt ⟨j, by omega⟩ (by simpa [Fin.lt_def] using hj)

theorem decimalDigits_toNat (b : Byte) :
    (decimalDigits b).map BitVec.toNat = [b.toNat / 100, b.toNat / 10 % 10, b.toNat % 10] := by
  simp [decimalDigits, BitVec.toNat_udiv, BitVec.toNat_umod]

theorem regsUpTo_length (s : State) (x : Reg) : (s.regsUpTo x).length = x.val + 1 := by
  simp [State.regsUpTo]

theorem regsUpTo_getElem (s : State) (x r : Reg) (h : r.val < (s.regsUpTo x).length) : (s.regsUpTo x)[r.val] = s.getV r := by
  simp [State.regsUpTo, State.getV]

end Sys2Proof.Machine
end

