-- ==== Sys2Proof/Laws/Draw.lean ====
section
/-! SUPPORT. The sprite engine as a picture: the loop of 44_display.md R131 flips exactly the pixels under a set
sprite bit and collides exactly where such a pixel was on. -/

namespace Sys2Proof.Machine

@[simp] theorem pixel_setPixel (d : Display) (cx cx' : Fin 64) (cy cy' : Fin 32) (b : Bool) :
    (Display.setPixel d cx cy b).pixel cx' cy' = if cx' = cx ∧ cy' = cy then b else Display.pixel d cx' cy' := by
  unfold Display.pixel Display.setPixel
  by_cases hy : cy' = cy
  · subst hy
    by_cases hx : cx' = cx
    · subst hx; simp
    · have hx' : cx.val ≠ cx'.val := fun e => hx (Fin.ext e.symm)
      simp [hx, hx']
  · have hy' : cy.val ≠ cy'.val := fun e => hy (Fin.ext e.symm)
    simp [hy, hy']

@[simp] theorem pixel_blank (cx : Fin 64) (cy : Fin 32) : Display.pixel Display.blank cx cy = false := by
  simp [Display.pixel, Display.blank]

/-- What has been drawn over `d` so far: exactly the pixels where `P` holds are flipped, and the collision bit tells whether
one of them was on in `d`. -/
def Drawn (d : Display) (P : Fin 64 → Fin 32 → Prop) (acc : Display × Bool) : Prop :=
  (∀ cx cy, P cx cy → Display.pixel acc.1 cx cy = !Display.pixel d cx cy) ∧
  (∀ cx cy, ¬P cx cy → Display.pixel acc.1 cx cy = Display.pixel d cx cy) ∧
  (acc.2 = true ↔ ∃ cx cy, P cx cy ∧ Display.pixel d cx cy = true)

theorem drawn_start (d : Display) : Drawn d (fun _ _ => False) (d, false) := by simp [Drawn]

theorem Drawn.congr {d : Display} {P Q : Fin 64 → Fin 32 → Prop} {acc : Display × Bool} (h : Drawn d P acc)
    (hPQ : ∀ cx cy, P cx cy ↔ Q cx cy) : Drawn d Q acc := by
  have : P = Q := by funext cx cy; exact propext (hPQ cx cy)
  exact this ▸ h

/-- One sprite bit over a pixel that no earlier bit of the sprite touched. -/
theorem Drawn.bit {d : Display} {P : Fin 64 → Fin 32 → Prop} {acc : Display × Bool} (h : Drawn d P acc) (px py : Nat)
    (row : Byte) (r c : Nat) (hfresh : ¬P (wrapCol (px + c)) (wrapRow (py + r))) :
    Drawn d (fun cx cy => P cx cy ∨ (row.getLsbD (7 - c) = true ∧ cx = wrapCol (px + c) ∧ cy = wrapRow (py + r)))
      (drawBit px py row r acc c) := by
  obtain ⟨h1, h2, h3⟩ := h
  unfold drawBit
  by_cases hb : row.getLsbD (7 - c) = true
  · have hold := h2 _ _ hfresh
    simp only [hb, if_true, true_and]
    refine ⟨?_, ?_, ?_⟩
    · intro cx cy hP
      by_cases hc : cx = wrapCol (px + c) ∧ cy = wrapRow (py + r)
      · simp [hc.1, hc.2, hold]
      · simp [hc, h1 cx cy (hP.resolve_right hc)]
    · intro cx cy hP
      have hc : ¬(cx = wrapCol (px + c) ∧ cy = wrapRow (py + r)) := fun e => hP (.inr e)
      simp [hc, h2 cx cy fun e => hP (.inl e)]
    · simp only [Bool.or_eq_true, h3, hold]
      constructor
      · rintro (⟨cx, cy, hP, ho⟩ | ho)
        · exact ⟨cx, cy, .inl hP, ho⟩
        · exact ⟨_, _, .inr ⟨rfl, rfl⟩, ho⟩
      · rintro ⟨cx, cy, hP | ⟨rfl, rfl⟩, ho⟩
        · exact .inl ⟨cx, cy, hP, ho⟩
        · exact .inr ho
  · simp only [hb]
    exact Drawn.congr ⟨h1, h2, h3⟩ (by simp)

@[simp] theorem wrapCol_val (n : Nat) : (wrapCol n).val = n % 64 := rfl
@[simp] theorem wrapRow_val (n : Nat) : (wrapRow n).val = n % 32 := rfl

/-- The first `m` bits of a row whose display row no earlier row of the sprite touched. -/
theorem Drawn.bits {d : Display} {P : Fin 64 → Fin 32 → Prop} {acc : Display × Bool} (h : Drawn d P acc) (px py : Nat)
    (row : Byte) (r : Nat) (hfresh : ∀ cx, ¬P cx (wrapRow (py + r))) (m : Nat) (hm : m ≤ 8) :
    Drawn d (fun cx cy => P cx cy ∨ (cy = wrapRow (py + r) ∧
        ∃ c, c < m ∧ row.getLsbD (7 - c) = true ∧ cx = wrapCol (px + c)))
      ((List.range m).foldl (drawBit px py row r) acc) := by
  induction m with
  | zero => exact Drawn.congr h (by simp)
  | succ m ih =>
    rw [List.range_succ, List.foldl_append]
    refine Drawn.congr ((ih (by omega)).bit px py row r m ?_) ?_
    · rintro (hP | ⟨-, c, hc, -, he⟩)
      · exact hfresh _ hP
      · have := congrArg Fin.val he
        simp only [wrapCol_val] at this
        omega
    · intro cx cy
      constructor
      · rintro ((hP | ⟨hy, c, hc, hb, hx⟩) | ⟨hb, hx, hy⟩)
        · exact .inl hP
        · exact .inr ⟨hy, c, by omega, hb, hx⟩
        · exact .inr ⟨hy, m, by omega, hb, hx⟩
      · rintro (hP | ⟨hy, c, hc, hb, hx⟩)
        · exact .inl (.inl hP)
        · rcases Nat.lt_succ_iff_lt_or_eq.mp hc with hlt | rfl
          · exact .inl (.inr ⟨hy, c, hlt, hb, hx⟩)
          · exact .inr ⟨hb, hx, hy⟩

/-- The rows of a sprite drawn so far, at most 32 of them. -/
theorem drawn_rows (s : State) (px py m : Nat) (hm : m ≤ 32) :
    Drawn s.fb (fun cx cy => ∃ r, r < m ∧ cy = wrapRow (py + r) ∧
        ∃ c, c < 8 ∧ (s.memRead (s.ea r)).getLsbD (7 - c) = true ∧ cx = wrapCol (px + c))
      (s.drawSprite px py m) := by
  unfold State.drawSprite
  induction m with
  | zero => exact (drawn_start s.fb).congr (by simp)
  | succ m ih =>
    rw [List.range_succ, List.foldl_append]
    refine Drawn.congr ((ih (by omega)).bits px py (s.memRead (s.ea m)) m ?_ 8 (by omega)) ?_
    · rintro cx ⟨r, hr, he, -⟩
      have := congrArg Fin.val he
      simp only [wrapRow_val] at this
      omega
    · intro cx cy
      constructor
      · rintro (⟨r, hr, hy, hc⟩ | ⟨hy, hc⟩)
        · exact ⟨r, by omega, hy, hc⟩
        · exact ⟨m, by omega, hy, hc⟩
      · rintro ⟨r, hr, hy, hc⟩
        rcases Nat.lt_succ_iff_lt_or_eq.mp hr with hlt | rfl
        · exact .inl ⟨r, hlt, hy, hc⟩
        · exact .inr ⟨hy, hc⟩

/-- The torus form of the sprite (`State.spriteBit`) is the loop's form. -/
theorem spriteBit_iff (s : State) (px py n : Nat) (hn : n ≤ 32) (cx : Fin 64) (cy : Fin 32) :
    s.spriteBit px py n cx cy = true ↔ ∃ r, r < n ∧ cy = wrapRow (py + r) ∧
      ∃ c, c < 8 ∧ (s.memRead (s.ea r)).getLsbD (7 - c) = true ∧ cx = wrapCol (px + c) := by
  have hcx := cx.isLt
  have hcy := cy.isLt
  simp only [State.spriteBit, Bool.and_eq_true, decide_eq_true_eq]
  constructor
  · rintro ⟨⟨hc, hr⟩, hb⟩
    exact ⟨_, hr, Fin.ext (by simp only [wrapRow_val]; omega), _, hc, hb, Fin.ext (by simp only [wrapCol_val]; omega)⟩
  · rintro ⟨r, hr, hy, c, hc, hb, hx⟩
    have hy := congrArg Fin.val hy
    have hx := congrArg Fin.val hx
    simp only [wrapRow_val] at hy
    simp only [wrapCol_val] at hx
    have h1 : (cx.val + 64 - px % 64) % 64 = c := by omega
    have h2 : (cy.val + 32 - py % 32) % 32 = r := by omega
    rw [h1, h2]
    exact ⟨⟨hc, hr⟩, hb⟩

/-- Everything `drawSprite` does, for a sprite of at most 15 rows. -/
theorem drawSprite_spec (s : State) (px py n : Nat) (hn : n ≤ 15) :
    Drawn s.fb (fun cx cy => s.spriteBit px py n cx cy = true) (s.drawSprite px py n) :=
  Drawn.congr (drawn_rows s px py n (by omega)) fun cx cy => (spriteBit_iff s px py n (by omega) cx cy).symm

end Sys2Proof.Machine
end

