-- ==== Sys2Proof/Laws/PerInstr.lean ====
section
/-! SUPPORT. What holds of each instruction as syntax, one lemma a constructor: its operands fit their fields (spec
30_encoding.md R61, R63), and its encoding has the fixed bits of its row of the opcode map (R65). -/

namespace Sys2Proof.Laws

/-- The operands fit their fields: the types of `Instr` admit no others. -/
def WellFormedOperands.Statement (i : Instr) : Prop := i.wellFormed = true

/-- The instruction's row is one of the 34, and its encoding is a word of that row. -/
def EncodedInItsRow.Statement (i : Instr) : Prop :=
  rowOf i ∈ opcodeTable ∧ encodeWord i &&& (rowOf i).mask = (rowOf i).code

/-! ### What the operand types give -/

theorem operands_nnn (nnn : Addr12) : OperandFields.wellFormed { nnn := nnn.toNat } = true := by
  have := nnn.isLt
  simp [OperandFields.wellFormed]; omega

theorem operands_xkk (x : Reg) (kk : Byte) : OperandFields.wellFormed { x := x, kk := kk.toNat } = true := by
  have := x.isLt
  have := kk.isLt
  simp [OperandFields.wellFormed]; omega

theorem operands_xyn (x y n : Fin 16) : OperandFields.wellFormed { x := x, y := y, n := n } = true := by
  simp [OperandFields.wellFormed, x.isLt, y.isLt, n.isLt]

theorem WellFormedOperands.cls : WellFormedOperands.Statement .cls := rfl
theorem WellFormedOperands.ret : WellFormedOperands.Statement .ret := rfl
theorem WellFormedOperands.jp (nnn : Addr12) : WellFormedOperands.Statement (.jp nnn) := operands_nnn nnn
theorem WellFormedOperands.call (nnn : Addr12) : WellFormedOperands.Statement (.call nnn) := operands_nnn nnn
theorem WellFormedOperands.seImm (x : Reg) (kk : Byte) : WellFormedOperands.Statement (.seImm x kk) := operands_xkk x kk
theorem WellFormedOperands.sneImm (x : Reg) (kk : Byte) : WellFormedOperands.Statement (.sneImm x kk) := operands_xkk x kk
theorem WellFormedOperands.seReg (x : Reg) (y : Reg) : WellFormedOperands.Statement (.seReg x y) := operands_xyn x y 0
theorem WellFormedOperands.ldImm (x : Reg) (kk : Byte) : WellFormedOperands.Statement (.ldImm x kk) := operands_xkk x kk
theorem WellFormedOperands.addImm (x : Reg) (kk : Byte) : WellFormedOperands.Statement (.addImm x kk) := operands_xkk x kk
theorem WellFormedOperands.ldReg (x : Reg) (y : Reg) : WellFormedOperands.Statement (.ldReg x y) := operands_xyn x y 0
theorem WellFormedOperands.orReg (x : Reg) (y : Reg) : WellFormedOperands.Statement (.orReg x y) := operands_xyn x y 0
theorem WellFormedOperands.andReg (x : Reg) (y : Reg) : WellFormedOperands.Statement (.andReg x y) := operands_xyn x y 0
theorem WellFormedOperands.xorReg (x : Reg) (y : Reg) : WellFormedOperands.Statement (.xorReg x y) := operands_xyn x y 0
theorem WellFormedOperands.addReg (x : Reg) (y : Reg) : WellFormedOperands.Statement (.addReg x y) := operands_xyn x y 0
theorem WellFormedOperands.subReg (x : Reg) (y : Reg) : WellFormedOperands.Statement (.subReg x y) := operands_xyn x y 0
theorem WellFormedOperands.shr (x : Reg) : WellFormedOperands.Statement (.shr x) := operands_xyn x 0 0
theorem WellFormedOperands.subnReg (x : Reg) (y : Reg) : WellFormedOperands.Statement (.subnReg x y) := operands_xyn x y 0
theorem WellFormedOperands.shl (x : Reg) : WellFormedOperands.Statement (.shl x) := operands_xyn x 0 0
theorem WellFormedOperands.sneReg (x : Reg) (y : Reg) : WellFormedOperands.Statement (.sneReg x y) := operands_xyn x y 0
theorem WellFormedOperands.ldI (nnn : Addr12) : WellFormedOperands.Statement (.ldI nnn) := operands_nnn nnn
theorem WellFormedOperands.jpV0 (nnn : Addr12) : WellFormedOperands.Statement (.jpV0 nnn) := operands_nnn nnn
theorem WellFormedOperands.rnd (x : Reg) (kk : Byte) : WellFormedOperands.Statement (.rnd x kk) := operands_xkk x kk
theorem WellFormedOperands.drw (x : Reg) (y : Reg) (n : Fin 16) : WellFormedOperands.Statement (.drw x y n) := operands_xyn x y n
theorem WellFormedOperands.skp (x : Reg) : WellFormedOperands.Statement (.skp x) := operands_xyn x 0 0
theorem WellFormedOperands.sknp (x : Reg) : WellFormedOperands.Statement (.sknp x) := operands_xyn x 0 0
theorem WellFormedOperands.ldFromDt (x : Reg) : WellFormedOperands.Statement (.ldFromDt x) := operands_xyn x 0 0
theorem WellFormedOperands.ldKey (x : Reg) : WellFormedOperands.Statement (.ldKey x) := operands_xyn x 0 0
theorem WellFormedOperands.ldDt (x : Reg) : WellFormedOperands.Statement (.ldDt x) := operands_xyn x 0 0
theorem WellFormedOperands.ldSt (x : Reg) : WellFormedOperands.Statement (.ldSt x) := operands_xyn x 0 0
theorem WellFormedOperands.addI (x : Reg) : WellFormedOperands.Statement (.addI x) := operands_xyn x 0 0
theorem WellFormedOperands.ldFont (x : Reg) : WellFormedOperands.Statement (.ldFont x) := operands_xyn x 0 0
theorem WellFormedOperands.ldBcd (x : Reg) : WellFormedOperands.Statement (.ldBcd x) := operands_xyn x 0 0
theorem WellFormedOperands.storeRegs (x : Reg) : WellFormedOperands.Statement (.storeRegs x) := operands_xyn x 0 0
theorem WellFormedOperands.loadRegs (x : Reg) : WellFormedOperands.Statement (.loadRegs x) := operands_xyn x 0 0

/-! ### Masks over the encoder's words -/

theorem mask_nnn (op : BitVec 4) (nnn : Addr12) : (wordNnn op nnn &&& 0xF000).toNat = 4096 * op.toNat := by
  have := nnn.isLt
  rw [and_f000, wordNnn_toNat]; omega

theorem mask_xkk (op : BitVec 4) (x : Reg) (kk : Byte) : (wordXkk op x kk &&& 0xF000).toNat = 4096 * op.toNat := by
  have := x.isLt
  have := kk.isLt
  rw [and_f000, wordXkk_toNat]; omega

theorem mask_sub (op : BitVec 4) (x : Reg) (kk : Byte) :
    (wordXkk op x kk &&& 0xF0FF).toNat = 4096 * op.toNat + kk.toNat := by
  have := x.isLt
  have := kk.isLt
  rw [and_f0ff, wordXkk_toNat]; omega

theorem mask_xyn (op : BitVec 4) (x y n : Fin 16) : (wordXyn op x y n &&& 0xF000).toNat = 4096 * op.toNat := by
  have := x.isLt
  have := y.isLt
  have := n.isLt
  rw [and_f000, wordXyn_toNat]; omega

theorem mask_xy (op : BitVec 4) (x y n : Fin 16) :
    (wordXyn op x y n &&& 0xF00F).toNat = 4096 * op.toNat + n.val := by
  have := x.isLt
  have := y.isLt
  have := n.isLt
  rw [and_f00f, wordXyn_toNat]; omega

theorem EncodedInItsRow.cls : EncodedInItsRow.Statement .cls :=
  ⟨by simp [rowOf, opcodeTable], by decide⟩
theorem EncodedInItsRow.ret : EncodedInItsRow.Statement .ret :=
  ⟨by simp [rowOf, opcodeTable], by decide⟩
theorem EncodedInItsRow.jp (nnn : Addr12) : EncodedInItsRow.Statement (.jp nnn) :=
  ⟨by simp [rowOf, opcodeTable], BitVec.eq_of_toNat_eq (mask_nnn _ nnn)⟩
theorem EncodedInItsRow.call (nnn : Addr12) : EncodedInItsRow.Statement (.call nnn) :=
  ⟨by simp [rowOf, opcodeTable], BitVec.eq_of_toNat_eq (mask_nnn _ nnn)⟩
theorem EncodedInItsRow.seImm (x : Reg) (kk : Byte) : EncodedInItsRow.Statement (.seImm x kk) :=
  ⟨by simp [rowOf, opcodeTable], BitVec.eq_of_toNat_eq (mask_xkk _ x kk)⟩
theorem EncodedInItsRow.sneImm (x : Reg) (kk : Byte) : EncodedInItsRow.Statement (.sneImm x kk) :=
  ⟨by simp [rowOf, opcodeTable], BitVec.eq_of_toNat_eq (mask_xkk _ x kk)⟩
theorem EncodedInItsRow.seReg (x : Reg) (y : Reg) : EncodedInItsRow.Statement (.seReg x y) :=
  ⟨by simp [rowOf, opcodeTable], BitVec.eq_of_toNat_eq (mask_xyn _ x y 0)⟩
theorem EncodedInItsRow.ldImm (x : Reg) (kk : Byte) : EncodedInItsRow.Statement (.ldImm x kk) :=
  ⟨by simp [rowOf, opcodeTable], BitVec.eq_of_toNat_eq (mask_xkk _ x kk)⟩
theorem EncodedInItsRow.addImm (x : Reg) (kk : Byte) : EncodedInItsRow.Statement (.addImm x kk) :=
  ⟨by simp [rowOf, opcodeTable], BitVec.eq_of_toNat_eq (mask_xkk _ x kk)⟩
theorem EncodedInItsRow.ldReg (x : Reg) (y : Reg) : EncodedInItsRow.Statement (.ldReg x y) :=
  ⟨by simp [rowOf, opcodeTable], BitVec.eq_of_toNat_eq (mask_xy _ x y _)⟩
theorem EncodedInItsRow.orReg (x : Reg) (y : Reg) : EncodedInItsRow.Statement (.orReg x y) :=
  ⟨by simp [rowOf, opcodeTable], BitVec.eq_of_toNat_eq (mask_xy _ x y _)⟩
theorem EncodedInItsRow.andReg (x : Reg) (y : Reg) : EncodedInItsRow.Statement (.andReg x y) :=
  ⟨by simp [rowOf, opcodeTable], BitVec.eq_of_toNat_eq (mask_xy _ x y _)⟩
theorem EncodedInItsRow.xorReg (x : Reg) (y : Reg) : EncodedInItsRow.Statement (.xorReg x y) :=
  ⟨by simp [rowOf, opcodeTable], BitVec.eq_of_toNat_eq (mask_xy _ x y _)⟩
theorem EncodedInItsRow.addReg (x : Reg) (y : Reg) : EncodedInItsRow.Statement (.addReg x y) :=
  ⟨by simp [rowOf, opcodeTable], BitVec.eq_of_toNat_eq (mask_xy _ x y _)⟩
theorem EncodedInItsRow.subReg (x : Reg) (y : Reg) : EncodedInItsRow.Statement (.subReg x y) :=
  ⟨by simp [rowOf, opcodeTable], BitVec.eq_of_toNat_eq (mask_xy _ x y _)⟩
theorem EncodedInItsRow.shr (x : Reg) : EncodedInItsRow.Statement (.shr x) :=
  ⟨by simp [rowOf, opcodeTable], BitVec.eq_of_toNat_eq (mask_xy _ x 0 _)⟩
theorem EncodedInItsRow.subnReg (x : Reg) (y : Reg) : EncodedInItsRow.Statement (.subnReg x y) :=
  ⟨by simp [rowOf, opcodeTable], BitVec.eq_of_toNat_eq (mask_xy _ x y _)⟩
theorem EncodedInItsRow.shl (x : Reg) : EncodedInItsRow.Statement (.shl x) :=
  ⟨by simp [rowOf, opcodeTable], BitVec.eq_of_toNat_eq (mask_xy _ x 0 _)⟩
theorem EncodedInItsRow.sneReg (x : Reg) (y : Reg) : EncodedInItsRow.Statement (.sneReg x y) :=
  ⟨by simp [rowOf, opcodeTable], BitVec.eq_of_toNat_eq (mask_xyn _ x y 0)⟩
theorem EncodedInItsRow.ldI (nnn : Addr12) : EncodedInItsRow.Statement (.ldI nnn) :=
  ⟨by simp [rowOf, opcodeTable], BitVec.eq_of_toNat_eq (mask_nnn _ nnn)⟩
theorem EncodedInItsRow.jpV0 (nnn : Addr12) : EncodedInItsRow.Statement (.jpV0 nnn) :=
  ⟨by simp [rowOf, opcodeTable], BitVec.eq_of_toNat_eq (mask_nnn _ nnn)⟩
theorem EncodedInItsRow.rnd (x : Reg) (kk : Byte) : EncodedInItsRow.Statement (.rnd x kk) :=
  ⟨by simp [rowOf, opcodeTable], BitVec.eq_of_toNat_eq (mask_xkk _ x kk)⟩
theorem EncodedInItsRow.drw (x : Reg) (y : Reg) (n : Fin 16) : EncodedInItsRow.Statement (.drw x y n) :=
  ⟨by simp [rowOf, opcodeTable], BitVec.eq_of_toNat_eq (mask_xyn _ x y n)⟩
theorem EncodedInItsRow.skp (x : Reg) : EncodedInItsRow.Statement (.skp x) :=
  ⟨by simp [rowOf, opcodeTable], BitVec.eq_of_toNat_eq (mask_sub _ x _)⟩
theorem EncodedInItsRow.sknp (x : Reg) : EncodedInItsRow.Statement (.sknp x) :=
  ⟨by simp [rowOf, opcodeTable], BitVec.eq_of_toNat_eq (mask_sub _ x _)⟩
theorem EncodedInItsRow.ldFromDt (x : Reg) : EncodedInItsRow.Statement (.ldFromDt x) :=
  ⟨by simp [rowOf, opcodeTable], BitVec.eq_of_toNat_eq (mask_sub _ x _)⟩
theorem EncodedInItsRow.ldKey (x : Reg) : EncodedInItsRow.Statement (.ldKey x) :=
  ⟨by simp [rowOf, opcodeTable], BitVec.eq_of_toNat_eq (mask_sub _ x _)⟩
theorem EncodedInItsRow.ldDt (x : Reg) : EncodedInItsRow.Statement (.ldDt x) :=
  ⟨by simp [rowOf, opcodeTable], BitVec.eq_of_toNat_eq (mask_sub _ x _)⟩
theorem EncodedInItsRow.ldSt (x : Reg) : EncodedInItsRow.Statement (.ldSt x) :=
  ⟨by simp [rowOf, opcodeTable], BitVec.eq_of_toNat_eq (mask_sub _ x _)⟩
theorem EncodedInItsRow.addI (x : Reg) : EncodedInItsRow.Statement (.addI x) :=
  ⟨by simp [rowOf, opcodeTable], BitVec.eq_of_toNat_eq (mask_sub _ x _)⟩
theorem EncodedInItsRow.ldFont (x : Reg) : EncodedInItsRow.Statement (.ldFont x) :=
  ⟨by simp [rowOf, opcodeTable], BitVec.eq_of_toNat_eq (mask_sub _ x _)⟩
theorem EncodedInItsRow.ldBcd (x : Reg) : EncodedInItsRow.Statement (.ldBcd x) :=
  ⟨by simp [rowOf, opcodeTable], BitVec.eq_of_toNat_eq (mask_sub _ x _)⟩
theorem EncodedInItsRow.storeRegs (x : Reg) : EncodedInItsRow.Statement (.storeRegs x) :=
  ⟨by simp [rowOf, opcodeTable], BitVec.eq_of_toNat_eq (mask_sub _ x _)⟩
theorem EncodedInItsRow.loadRegs (x : Reg) : EncodedInItsRow.Statement (.loadRegs x) :=
  ⟨by simp [rowOf, opcodeTable], BitVec.eq_of_toNat_eq (mask_sub _ x _)⟩

end Sys2Proof.Laws
end

