-- ==== Sys2Proof/Laws/Step.lean ====
section
/-! SUPPORT. What a step can do, said once: a faulted machine stays, an unrecognised word advances, a decoded
instruction runs (spec 40_flow.md R80). -/

namespace Sys2Proof.Machine

@[simp] theorem faulted_eq_true {s : State} : s.faulted = true ↔ s.fault ≠ .none := by simp [State.faulted]
@[simp] theorem faulted_eq_false {s : State} : s.faulted = false ↔ s.fault = .none := by simp [State.faulted]

theorem step_faulted {s : State} (h : s.fault ≠ .none) : step s = .next s := by
  simp [step, h, stepFaulted]

/-- The fetched bytes decode as the word at PC does. -/
theorem decode_fetch (s : State) : decode s.fetch = match decodeWord s.wordAtPc with
    | .ok i => .ok (i, [])
    | .error e => .error e := rfl

theorem step_of_decode {s : State} {i : Instr} (hf : s.fault = .none) (h : decodeWord s.wordAtPc = .ok i) :
    step s = exec i s := by
  simp [step, hf, State.faulted, decode_fetch, h]

theorem step_of_reject {s : State} {e : Reject} (hf : s.fault = .none) (h : decodeWord s.wordAtPc = .error e) :
    step s = .next s.advance := by
  simp [step, hf, State.faulted, decode_fetch, h, execUnrecognised]

/-- The three ways a step goes; every claim about all steps starts here. -/
theorem step_cases (s : State) :
    (s.fault ≠ .none ∧ step s = .next s) ∨
    (s.fault = .none ∧ (∃ e, decodeWord s.wordAtPc = .error e) ∧ step s = .next s.advance) ∨
    (s.fault = .none ∧ ∃ i, decodeWord s.wordAtPc = .ok i ∧ step s = exec i s) := by
  by_cases hf : s.fault = .none
  · cases h : decodeWord s.wordAtPc with
    | error e => exact .inr (.inl ⟨hf, ⟨e, rfl⟩, step_of_reject hf h⟩)
    | ok i => exact .inr (.inr ⟨hf, i, rfl, step_of_decode hf h⟩)
  · exact .inl ⟨hf, step_faulted hf⟩

theorem instrAtPc_eq_some {s : State} {i : Instr} : s.instrAtPc = some i ↔ decodeWord s.wordAtPc = .ok i := by
  unfold State.instrAtPc
  cases decodeWord s.wordAtPc <;> simp [Except.toOption]

/-- The word at PC depends on memory and PC alone. -/
theorem wordAtPc_congr {s t : State} (hm : t.mem = s.mem) (hp : t.pc = s.pc) : t.wordAtPc = s.wordAtPc := by
  simp [State.wordAtPc, memRead_congr hm, hp]

theorem instrAtPc_congr {s t : State} (hm : t.mem = s.mem) (hp : t.pc = s.pc) : t.instrAtPc = s.instrAtPc := by
  simp [State.instrAtPc, wordAtPc_congr hm hp]

/-- A run goes on from the next state of its first step. -/
theorem run_succ {M : Host.Core} {s t : M.State} (k : Nat) (h : M.step s = .next t) : M.run (k + 1) s = M.run k t := by
  simp [Host.Core.run, h]

/-- `withFetchWord` places the word where the next step fetches it, and clears a fault. -/
theorem wordAtPc_withFetchWord (s : State) (w : Word) : (s.withFetchWord 16 w.toNat).wordAtPc = w := by
  have h : BitVec.ofNat 16 (w.toNat % 2 ^ 16) = w := by
    apply BitVec.eq_of_toNat_eq; have := w.isLt; simp; omega
  have hpc : (s.withFetchWord 16 w.toNat).pc = s.pc := by simp [State.withFetchWord, State.placeFetch]
  have hr : ∀ a, (s.withFetchWord 16 w.toNat).memRead a =
      (s.memWriteList s.pc.toNat [w.extractLsb' 8 8, w.extractLsb' 0 8]).memRead a := by
    intro a; simp only [State.withFetchWord, State.placeFetch, tableBytes, bytesOfWord, h]; rfl
  have h0 := memRead_memWriteList s s.pc.toNat 0 [w.extractLsb' 8 8, w.extractLsb' 0 8] (by simp) (by simp)
  have h1 := memRead_memWriteList s s.pc.toNat 1 [w.extractLsb' 8 8, w.extractLsb' 0 8] (by simp) (by simp)
  rw [Nat.add_zero] at h0
  rw [State.wordAtPc, hpc, hr, hr, h0, h1]
  exact wordOfBytes_bytesOfWord w

end Sys2Proof.Machine
end

