-- ==== Sys2Proof/Tests/Slice0.lean ====
section
/-! SUPPORT. The model's own tests. Expected values are the spec's: the vectors of 95_test_vectors.md, worked there by
hand from the rules, and for decoding the encodings of 30_encoding.md R65 written out bit by bit. -/

namespace Sys2Proof.Tests

open Sys2Proof.Machine

/-! ### Helpers -/

/-- The next state of an outcome. -/
def nextOf {α : Type} : Host.Outcome α Fault Refusal → Option α
  | .next t => some t
  | _ => none

theorem eq_next {α : Type} {o : Host.Outcome α Fault Refusal} {a : α} (h : nextOf o = some a) : o = .next a := by
  cases o <;> simp_all [nextOf]

/-- Registers forced to values. -/
def withRegs (l : List (Reg × Byte)) (s : State) : State := l.foldl (fun s p => s.setV p.1 p.2) s

/-- One step on a word of the opcode table placed at PC. -/
def runWord (w : Nat) (s : State) : Option State := nextOf (step (s.withFetchWord 16 w))

/-- The values of registers after one step on a word, and PC. -/
def regsAfter (w : Nat) (s : State) (rs : List Reg) : Option (List Byte × Word) :=
  (runWord w s).map fun t => (rs.map t.getV, t.pc)

/-- The bytes at addresses after one step on a word. -/
def bytesAfter (w : Nat) (s : State) (as : List Nat) : Option (List Byte) := (runWord w s).map fun t => as.map t.memRead

/-- The lit pixels of a display row, by column. -/
def lit (s : State) (cy : Fin 32) : List (Fin 64) := (List.finRange 64).filter (s.pixel · cy)

/-- Reset, with registers set. -/
def r0 (l : List (Reg × Byte)) : State := withRegs l .reset

/-! ### WellFormed refuses an operand that does not fit its field, check by check -/

theorem test_wf_x : OperandFields.wellFormed { x := 16 } = false := by decide
theorem test_wf_y : OperandFields.wellFormed { y := 16 } = false := by decide
theorem test_wf_n : OperandFields.wellFormed { n := 16 } = false := by decide
theorem test_wf_kk : OperandFields.wellFormed { kk := 256 } = false := by decide
theorem test_wf_nnn : OperandFields.wellFormed { nnn := 4096 } = false := by decide
theorem test_wf_largest : OperandFields.wellFormed { x := 15, y := 15, n := 15, kk := 255, nnn := 4095 } = true := by decide

/-! ### Decoding, one word for each constructor (R60, R61, R65): the bits of the row, the operand bits free -/

theorem test_decode_cls : decodeWord 0b0000000011100000 = .ok .cls := by decide
theorem test_decode_ret : decodeWord 0b0000000011101110 = .ok .ret := by decide
theorem test_decode_jp : decodeWord 0b0001101010111100 = .ok (.jp 0xABC) := by decide
theorem test_decode_call : decodeWord 0b0010101010111100 = .ok (.call 0xABC) := by decide
theorem test_decode_seImm : decodeWord 0b0011000110100101 = .ok (.seImm 1 0xA5) := by decide
theorem test_decode_sneImm : decodeWord 0b0100001010100101 = .ok (.sneImm 2 0xA5) := by decide
theorem test_decode_seReg : decodeWord 0b0101000100100000 = .ok (.seReg 1 2) := by decide
theorem test_decode_seReg_low_nibble : decodeWord 0b0101000100101111 = .ok (.seReg 1 2) := by decide
theorem test_decode_ldImm : decodeWord 0b0110101011111110 = .ok (.ldImm 10 0xFE) := by decide
theorem test_decode_addImm : decodeWord 0b0111101111111110 = .ok (.addImm 11 0xFE) := by decide
theorem test_decode_ldReg : decodeWord 0b1000001111000000 = .ok (.ldReg 3 12) := by decide
theorem test_decode_orReg : decodeWord 0b1000001111000001 = .ok (.orReg 3 12) := by decide
theorem test_decode_andReg : decodeWord 0b1000001111000010 = .ok (.andReg 3 12) := by decide
theorem test_decode_xorReg : decodeWord 0b1000001111000011 = .ok (.xorReg 3 12) := by decide
theorem test_decode_addReg : decodeWord 0b1000001111000100 = .ok (.addReg 3 12) := by decide
theorem test_decode_subReg : decodeWord 0b1000001111000101 = .ok (.subReg 3 12) := by decide
theorem test_decode_shr : decodeWord 0b1000001111000110 = .ok (.shr 3) := by decide
theorem test_decode_subnReg : decodeWord 0b1000001111000111 = .ok (.subnReg 3 12) := by decide
theorem test_decode_shl : decodeWord 0b1000001111001110 = .ok (.shl 3) := by decide
theorem test_decode_sneReg : decodeWord 0b1001001111001001 = .ok (.sneReg 3 12) := by decide
theorem test_decode_ldI : decodeWord 0b1010100000000001 = .ok (.ldI 0x801) := by decide
theorem test_decode_jpV0 : decodeWord 0b1011010000000010 = .ok (.jpV0 0x402) := by decide
theorem test_decode_rnd : decodeWord 0b1100010100001111 = .ok (.rnd 5 0x0F) := by decide
theorem test_decode_drw : decodeWord 0b1101011001111001 = .ok (.drw 6 7 9) := by decide
theorem test_decode_skp : decodeWord 0b1110100010011110 = .ok (.skp 8) := by decide
theorem test_decode_sknp : decodeWord 0b1110100010100001 = .ok (.sknp 8) := by decide
theorem test_decode_ldFromDt : decodeWord 0b1111100100000111 = .ok (.ldFromDt 9) := by decide
theorem test_decode_ldKey : decodeWord 0b1111100100001010 = .ok (.ldKey 9) := by decide
theorem test_decode_ldDt : decodeWord 0b1111100100010101 = .ok (.ldDt 9) := by decide
theorem test_decode_ldSt : decodeWord 0b1111100100011000 = .ok (.ldSt 9) := by decide
theorem test_decode_addI : decodeWord 0b1111100100011110 = .ok (.addI 9) := by decide
theorem test_decode_ldFont : decodeWord 0b1111100100101001 = .ok (.ldFont 9) := by decide
theorem test_decode_ldBcd : decodeWord 0b1111100100110011 = .ok (.ldBcd 9) := by decide
theorem test_decode_storeRegs : decodeWord 0b1111100101010101 = .ok (.storeRegs 9) := by decide
theorem test_decode_loadRegs : decodeWord 0b1111100101100101 = .ok (.loadRegs 9) := by decide

/-- The unrecognised words of V-DEC. -/
theorem test_unrecognised : ([0x0000, 0x0123, 0x00E1, 0x00EF, 0x0FFF, 0x8128, 0x812F, 0x8009, 0xE19F, 0xE000, 0xE1A0, 0xF1FF,
    0xF100, 0xF090, 0xF056] : List Word).all (fun w => (decodeWord w).toOption.isNone) = true := by decide

/-- The high byte comes first (R44), a byte alone is no instruction, and what follows is left. -/
theorem test_bytes : decode [0x12, 0x34, 0x56] = .ok (.jp 0x234, [0x56]) ∧ decode [0x12] = .error .tooShort := by decide

theorem test_encode : encode (.drw 13 0 5) = [0xDD, 0x05] ∧ encode (.shl 3) = [0x83, 0x0E] := by decide

theorem test_table_word : decodeTableWord 16 0xF565 = some (.loadRegs 5) ∧ decodeTableWord 16 0x8128 = none := by decide

/-! ### Memory (V-RST, S10; R43) -/

theorem test_font : ([0, 1, 2, 3, 4, 0x4F, 0x50] : List Nat).map State.reset.memRead = [0xF0, 0x90, 0x90, 0x90, 0xF0, 0x80, 0x00] := by
  decide

/-- Address 0x1300 is 0x300, and writing an address's reset contents takes its entry out again. -/
theorem test_memory_form : (State.reset.memWrite 0x1300 7).mem = [(0x300, 7)] ∧
    ((State.reset.memWrite 0x300 7).memWrite 0x300 0).mem = [] := by decide

/-! ### One step of each instruction (V-FLOW, V-SKIP, V-ALU, V-IDX, V-DRW, V-TMR) -/

theorem test_jp :
    (runWord 0x1ABC .reset).map State.pc = some 0xABC := by decide
theorem test_call :
    (runWord 0x2ABC .reset).map (fun t => (t.pc, t.sp, t.slot 1)) = some (0xABC, 1, 0x200) := by decide

/-- SP = 15 already: the call faults and changes nothing else. -/
theorem test_call_overflow :
    (runWord 0x2ABC { State.reset with sp := 15 }).map (fun t => (t.pc, t.sp, t.fault, t.slot 0)) =
      some (0x200, 15, .stackOverflow, 0) := by decide
theorem test_ret :
    (runWord 0x00EE ((State.reset.push 0x200).setPc 0xABC)).map (fun t => (t.pc, t.sp, t.slot 1)) = some (0x202, 0, 0x200) := by decide
theorem test_ret_underflow :
    (runWord 0x00EE .reset).map (fun t => (t.pc, t.sp, t.fault)) = some (0x200, 0, .stackUnderflow) := by decide
theorem test_jpV0 :
    (runWord 0xBFFF (r0 [(0, 0xFF), (15, 0x77)])).map State.pc = some 0x10FE := by decide
theorem test_seImm :
    regsAfter 0x3100 (r0 []) [1] = some ([0], 0x204) := by decide
theorem test_seImm_no :
    regsAfter 0x3100 (r0 [(1, 1)]) [1] = some ([1], 0x202) := by decide

/-- PC = FFFE: the skip wraps modulo 65536, and the word is fetched from FFE and FFF. -/
theorem test_seImm_wrap :
    regsAfter 0x3100 (State.reset.setPc 0xFFFE) [] = some ([], 0x0002) := by decide
theorem test_sneImm :
    regsAfter 0x4210 (r0 [(2, 0x11)]) [2] = some ([0x11], 0x204) := by decide
theorem test_sneImm_no :
    regsAfter 0x4210 (r0 [(2, 0x10)]) [2] = some ([0x10], 0x202) := by decide
theorem test_seReg :
    regsAfter 0x5121 (r0 [(1, 1), (2, 1)]) [1] = some ([1], 0x204) := by decide
theorem test_seReg_no :
    regsAfter 0x5120 (r0 [(1, 7), (2, 8)]) [1] = some ([7], 0x202) := by decide
theorem test_sneReg :
    regsAfter 0x9120 (r0 [(1, 7), (2, 8)]) [1] = some ([7], 0x204) := by decide
theorem test_sneReg_no :
    regsAfter 0x9121 (r0 [(1, 1), (2, 1)]) [1] = some ([1], 0x202) := by decide
theorem test_skp :
    regsAfter 0xE19E ((r0 [(1, 0x1A)]).setKeyBit 10 true) [1] = some ([0x1A], 0x204) := by decide
theorem test_skp_no :
    regsAfter 0xE19E (r0 [(1, 5)]) [1] = some ([5], 0x202) := by decide
theorem test_sknp :
    regsAfter 0xE1A1 (r0 [(1, 5)]) [1] = some ([5], 0x204) := by decide
theorem test_sknp_no :
    regsAfter 0xE1A1 ((r0 [(1, 5)]).setKeyBit 5 true) [1] = some ([5], 0x202) := by decide
theorem test_ldImm :
    regsAfter 0x6AFF (r0 []) [10, 15] = some ([0xFF, 0], 0x202) := by decide
theorem test_addImm :
    regsAfter 0x7101 (r0 [(1, 0xFF), (15, 0x55)]) [1, 15] = some ([0, 0x55], 0x202) := by decide
theorem test_ldReg :
    regsAfter 0x8010 (r0 [(0, 0x11), (1, 0xAB), (15, 0x77)]) [0, 1, 15] = some ([0xAB, 0xAB, 0x77], 0x202) := by decide
theorem test_orReg :
    regsAfter 0x8011 (r0 [(0, 0xF0), (1, 0x0F), (15, 0x77)]) [0, 1, 15] = some ([0xFF, 0x0F, 0x77], 0x202) := by decide
theorem test_andReg :
    regsAfter 0x8012 (r0 [(0, 0xF0), (1, 0x3C), (15, 0x77)]) [0, 1, 15] = some ([0x30, 0x3C, 0x77], 0x202) := by decide
theorem test_xorReg :
    regsAfter 0x8013 (r0 [(0, 0xF0), (1, 0x3C), (15, 0x77)]) [0, 1, 15] = some ([0xCC, 0x3C, 0x77], 0x202) := by decide
theorem test_addReg :
    regsAfter 0x80F4 (r0 [(0, 0xFF), (15, 1)]) [0, 15] = some ([0, 1], 0x202) := by decide
theorem test_addReg_into_vF :
    regsAfter 0x8F14 (r0 [(15, 0xF0), (1, 0x20)]) [15] = some ([0x10], 0x202) := by decide
theorem test_subReg :
    regsAfter 0x8015 (r0 [(0, 5), (1, 5), (15, 9)]) [0, 15] = some ([0, 0], 0x202) := by decide
theorem test_subReg_borrow :
    regsAfter 0x8015 (r0 [(0, 5), (1, 6), (15, 9)]) [0, 15] = some ([0xFF, 0], 0x202) := by decide
theorem test_subnReg :
    regsAfter 0x8017 (r0 [(0, 5), (1, 6)]) [0, 15] = some ([1, 1], 0x202) := by decide
theorem test_subnReg_old_vF :
    regsAfter 0x80F7 (r0 [(0, 5), (15, 9)]) [0, 15] = some ([4, 1], 0x202) := by decide
theorem test_shr :
    regsAfter 0x8016 (r0 [(0, 7), (1, 0xAA)]) [0, 1, 15] = some ([3, 0xAA, 1], 0x202) := by decide
theorem test_shr_into_vF :
    regsAfter 0x8F16 (r0 [(15, 6)]) [15] = some ([3], 0x202) := by decide
theorem test_shl :
    regsAfter 0x801E (r0 [(0, 0xC1)]) [0, 15] = some ([0x82, 1], 0x202) := by decide
theorem test_shl_no :
    regsAfter 0x801E (r0 [(0, 0x7F), (15, 9)]) [0, 15] = some ([0xFE, 0], 0x202) := by decide

/-- `rand` is A7. -/
theorem test_rnd :
    regsAfter 0xC30F (State.reset.setRandIn [0xA7]) [3] = some ([7], 0x202) := by decide

/-- Whatever `rand` is, a mask of 0 gives 0. -/
theorem test_rnd_zero : (nextOf (exec (.rnd 4 0) (r0 [(4, 0x33)]))).map (·.getV 4) = some 0 := by simp [exec, execRnd, nextOf]
theorem test_ldI :
    (runWord 0xAFFF .reset).map (fun t => (t.i, t.pc)) = some (0xFFF, 0x202) := by decide
theorem test_addI :
    (runWord 0xF21E ((r0 [(2, 1), (15, 7)]).setI 0xFFF)).map (fun t => (t.i, t.getV 15)) = some (0x1000, 7) := by decide
theorem test_addI_wrap :
    (runWord 0xF21E ((r0 [(2, 1)]).setI 0xFFFF)).map (fun t => (t.i, t.getV 15)) = some (0, 0) := by decide
theorem test_ldFont :
    (runWord 0xF329 (r0 [(3, 0x1A)])).map (fun t => (t.i, t.pc)) = some (0x32, 0x202) := by decide
theorem test_ldBcd :
    bytesAfter 0xF033 ((r0 [(0, 0x80)]).setI 0x300) [0x300, 0x301, 0x302, 0x303] = some [1, 2, 8, 0] := by decide
theorem test_ldBcd_wrap :
    bytesAfter 0xF433 ((r0 [(4, 0xFF)]).setI 0xFFE) [0xFFE, 0xFFF, 0x000, 0x001] = some [2, 5, 5, 0x90] := by decide
theorem test_storeRegs :
    bytesAfter 0xF155 ((r0 [(0, 0x11), (1, 0x22), (2, 0x33)]).setI 0x300) [0x300, 0x301, 0x302] = some [0x11, 0x22, 0] := by decide
theorem test_storeRegs_wrap :
    bytesAfter 0xF155 ((r0 [(0, 0xA0), (1, 0xA1)]).setI 0xFFF) [0xFFF, 0x000, 0x001] = some [0xA0, 0xA1, 0x90] := by decide
theorem test_loadRegs :
    regsAfter 0xF265 (r0 [(3, 0x33)]) [0, 1, 2, 3] = some ([0xF0, 0x90, 0x90, 0x33], 0x202) := by decide
theorem test_loadRegs_all :
    regsAfter 0xFF65 (r0 []) [4, 5, 11, 15] = some ([0xF0, 0x20, 0x10, 0xF0], 0x202) := by decide
theorem test_cls :
    (runWord 0x00E0 (State.reset.setFb (Vector.replicate 32 (Vector.replicate 64 true)))).map (fun t => (lit t 0, lit t 31, t.pc)) =
      some ([], [], 0x202) := by decide

/-- The glyph 0 of S2a, and a sprite over both edges of the screen. -/
theorem test_drw :
    (runWord 0xD005 .reset).map (fun t => ([0, 1, 4, 5].map (lit t), t.getV 15, t.i)) =
      some ([[0, 1, 2, 3], [0, 3], [0, 1, 2, 3], []], 0, 0) := by decide
theorem test_drw_wrap :
    (runWord 0xD012 (((r0 [(0, 62), (1, 31)]).setI 0x300).memWriteList 0x300 [0xFF, 0x81])).map
      (fun t => ([31, 0, 1].map (lit t), t.getV 15)) = some ([[0, 1, 2, 3, 4, 5, 62, 63], [5, 62], []], 0) := by decide
theorem test_ldFromDt :
    regsAfter 0xF307 (State.reset.setDt 0x2A) [3] = some ([0x2A], 0x202) := by decide
theorem test_ldDt :
    (runWord 0xF015 (r0 [(0, 3)])).map (fun t => (t.dt, t.st, t.pc)) = some (3, 0, 0x202) := by decide
theorem test_ldSt :
    (runWord 0xF118 (r0 [(1, 10)])).map (fun t => (t.dt, t.st, t.tone)) = some (0, 10, true) := by decide
theorem test_ldKey :
    (runWord 0xF00A ((State.reset.setKeyBit 9 true).setKeyBit 3 true)).map
      (fun t => (t.getV 0, t.waiting, t.pc, t.key 3, t.key 9)) = some (3, false, 0x202, true, true) := by decide
theorem test_ldKey_none :
    (runWord 0xF00A (r0 [(0, 0x44)])).map (fun t => (t.getV 0, t.waiting, t.pc)) = some (0x44, true, 0x200) := by decide
theorem test_no_op :
    (runWord 0x8128 .reset).map (fun t => (t.pc, t.fault, t.getV 1)) = some (0x202, .none, 0) := by decide

/-! ### Commands and edges (V-TMR, V-LOAD, 10_state.md R25) -/

theorem test_tick :
    ((tickTimers ((State.reset.setDt 1).setSt 0)).dt, (tickTimers ((State.reset.setDt 1).setSt 0)).st) = (0, 0) := by decide
theorem test_load :
    (nextOf (perform (.loadProgram [0x60, 0x05]) .reset)).map (fun p => (p.1, [0x200, 0x201, 0x202].map p.2.memRead)) =
      some (.loadOk, [0x60, 0x05, 0]) := by decide
theorem test_step_fault_again :
    (nextOf (perform (.step 0) (State.reset.raise .stackUnderflow))).map (fun p => (p.1, p.2.pc)) =
      some (.stepFault .stackUnderflow, 0x200) := by decide
theorem test_edge_set_key :
    (nextOf (clockEdge { cmd := 5, arg := 4 } .reset)).map (fun p => (p.2.key 4, p.2.key 5)) = some (true, false) := by decide
theorem test_edge_load_byte :
    (nextOf (clockEdge { cmd := 2, arg := 1, data := 0x77 } .reset)).map (fun p => p.2.memRead 0x201) = some 0x77 := by decide

/-! ### Witnesses: for each obligation with hypotheses, operands and a state that meet them together -/

/-- A state with a word at PC. -/
def placed (w : Nat) (s : State) : State := s.withFetchWord 16 w

/-- A state at the key-wait `F00A` that has run once with no key held. -/
def keyWaiting : State := (placed 0xF00A .reset).setWaiting true

/-- A state faulted at `CALL 0xABC`, the stack full. -/
def overflowed : State := (placed 0x2ABC { State.reset with sp := 15 }).raise .stackOverflow

/-- A state faulted at `RET`, the stack empty. -/
def underflowed : State := (placed 0x00EE .reset).raise .stackUnderflow

/-- A lit pixel in the corner, the sprite 80 at I: a draw at (0, 0) collides. -/
def cornerLit : State := ((State.reset.setFb (Display.setPixel Display.blank 0 0 true)).setI 0x300).memWrite 0x300 0x80

theorem witness_DecodeOfEncodeIsIdentity : (Instr.drw 15 15 15).wellFormed = true := by decide

theorem witness_EncodeOfDecodeKeepsTheUsedBits : decodeWord 0x83F6 = .ok (.shr 3) := by decide

theorem witness_DecoderFollowsTheOpcodeMap : (⟨0xF00F, 0x800E⟩ : Row) ∈ opcodeTable ∧ (0x8FFE : Word) &&& 0xF00F = 0x800E ∧
    decodeWord 0x8FFE = .ok (.shl 15) := by decide

/-- Each of the four classes has an unrecognised word, and a recognised one beside it. -/
theorem witness_UnrecognisedWordsAreTheListedOnes : ([0x00E1, 0x8008, 0xE09F, 0xF0FF] : List Word).map decodeWord =
      [.error .unrecognised0, .error .unrecognised8, .error .unrecognisedE, .error .unrecognisedF] ∧
    ([0x00E0, 0x8007, 0xE09E, 0xF065] : List Word).map decodeWord =
      [.ok .cls, .ok (.subnReg 0 0), .ok (.skp 0), .ok (.loadRegs 0)] := by decide

theorem witness_StepRunsTheDecodedInstruction : (placed 0x1ABC .reset).fault = .none ∧ (Instr.jp 0xABC).wellFormed = true ∧
    decodeWord ((placed 0x1ABC .reset).memRead (placed 0x1ABC .reset).pc.toNat ++
      (placed 0x1ABC .reset).memRead ((placed 0x1ABC .reset).pc.toNat + 1)) = .ok (.jp 0xABC) := by decide

theorem witness_StepAdvancesOverUnrecognisedWords : (placed 0xF1FF .reset).fault = .none ∧
    decodeWord (placed 0xF1FF .reset).wordAtPc = .error .unrecognisedF := by decide

theorem witness_FaultedStepChangesNothing : overflowed.fault ≠ .none ∧ underflowed.fault ≠ .none := by decide

/-- The invariant holds in a waiting state and in both faulted states, and each steps. -/
theorem witness_StepKeepsTheInvariant_waiting : keyWaiting.Inv ∧ step keyWaiting = .next keyWaiting :=
  ⟨⟨by decide, fun _ => ⟨0, by decide⟩, by decide, by decide⟩, eq_next (by decide)⟩

theorem witness_StepKeepsTheInvariant_overflow : overflowed.Inv ∧ step overflowed = .next overflowed :=
  ⟨⟨by decide, by decide, fun _ => ⟨by decide, 0xABC, by decide⟩, by decide⟩, step_faulted (by decide)⟩

theorem witness_StepKeepsTheInvariant_underflow : underflowed.Inv ∧ step underflowed = .next underflowed :=
  ⟨⟨by decide, by decide, by decide, fun _ => by decide⟩, step_faulted (by decide)⟩

theorem witness_CommandsKeepTheInvariant : State.reset.Inv ∧ State.reset.waiting = false ∧ State.reset.fault = .none ∧
    perform (.loadProgram [0x60]) .reset = .next (.loadOk, State.reset.memWriteList 0x200 [0x60]) :=
  ⟨⟨by decide, by decide, by decide, by decide⟩, rfl, rfl, rfl⟩

/-- For the flag clauses of the additions, subtractions and shifts: a destination that is not VF, both values of the flag. -/
theorem witness_AddWritesSumAndCarry : (0 : Reg) ≠ vF ∧
    (runWord 0x8014 (r0 [(0, 0xFF), (1, 0x01)])).map (·.getV vF) = some 1 ∧
    (runWord 0x8014 (r0 [(0, 0xFF), (1, 0x00)])).map (·.getV vF) = some 0 := by decide

theorem witness_SubtractionsWriteDifferenceAndNotBorrow : (0 : Reg) ≠ vF ∧
    (runWord 0x8015 (r0 [(0, 6), (1, 5)])).map (·.getV vF) = some 1 ∧
    (runWord 0x8017 (r0 [(0, 5), (1, 5)])).map (·.getV vF) = some 0 := by decide

theorem witness_ShiftsMoveOneBitIntoVF : (0 : Reg) ≠ vF ∧
    (runWord 0x8016 (r0 [(0, 0xFF)])).map (·.getV vF) = some 1 ∧
    (runWord 0x801E (r0 [(0, 0x80)])).map (·.getV vF) = some 1 := by decide

theorem witness_KeySkipsTestTheKeyOfTheLowNibble : (10 : Fin 16).val = ((r0 [(1, 0x1A)]).getV 1).toNat % 16 ∧
    ((r0 [(1, 0x1A)]).setKeyBit 10 true).key 10 = true ∧ (r0 [(1, 0x1A)]).key 10 = false := by decide

/-- The largest SP that still takes a `CALL`, and the smallest that still takes a `RET`. -/
theorem witness_CallPushesItsOwnAddress : ({ State.reset with sp := 14 } : State).sp.val ≠ 15 := by decide

theorem witness_RetReturnsPastTheCall : ({ State.reset with sp := 1 } : State).sp.val ≠ 0 := by decide

theorem witness_StackFaultsChangeOnlyFault : ({ State.reset with sp := 15 } : State).sp.val = 15 ∧ State.reset.sp.val = 0 := by
  decide

theorem witness_CallThenRetComesBack : State.reset.sp.val ≠ 15 ∧
    exec (.call 0xABC) .reset = .next ((State.reset.push 0x200).setPc 0xABC) := ⟨by decide, rfl⟩

theorem witness_RegistersAreStoredFromI : (0 : Reg) ≤ 0 ∧ (15 : Reg) ≤ 15 := by decide

theorem witness_RegistersAreLoadedFromI : (15 : Reg) ≤ 15 ∧ (14 : Reg) < 15 := by decide

/-- The registers are cleared between the store and the load. -/
theorem witness_StoredRegistersLoadBack :
    exec (.storeRegs 1) ((r0 [(0, 1), (1, 2)]).setI 0xFFF) =
      .next ((((r0 [(0, 1), (1, 2)]).setI 0xFFF).memWriteList 0xFFF [1, 2]).advance) ∧
    SamePiece ((((r0 [(0, 1), (1, 2)]).setI 0xFFF).memWriteList 0xFFF [1, 2]).advance)
      (withRegs [(0, 0), (1, 0)] (((r0 [(0, 1), (1, 2)]).setI 0xFFF).memWriteList 0xFFF [1, 2])) .mem ∧
    (withRegs [(0, 0), (1, 0)] (((r0 [(0, 1), (1, 2)]).setI 0xFFF).memWriteList 0xFFF [1, 2])).i =
      ((r0 [(0, 1), (1, 2)]).setI 0xFFF).i :=
  ⟨eq_next (by decide), fun _ => rfl, by decide⟩

theorem witness_StoredWordIsFetchedNext : 1 ≤ (1 : Reg).val ∧
    (State.reset.setI 0x202).i.toNat = (State.reset.setI 0x202).pc.toNat + 2 := by decide

/-- A draw that hits a lit pixel, and one that hits none. -/
theorem witness_DrawXorsTheSprite :
    (∃ cx cy, cornerLit.pixel cx cy = true ∧ cornerLit.spriteBit 0 0 1 cx cy = true) ∧
    ¬∃ cx cy, State.reset.pixel cx cy = true ∧ State.reset.spriteBit 0 0 5 cx cy = true :=
  ⟨⟨0, 0, by decide⟩, fun ⟨cx, cy, h, _⟩ => by simp [State.pixel, Display.pixel, State.reset] at h⟩

theorem witness_DrawingTwiceRestoresTheDisplay : (0 : Reg) ≠ vF ∧ (1 : Reg) ≠ vF ∧
    ∃ t u, exec (.drw 0 1 1) cornerLit = .next t ∧ exec (.drw 0 1 1) t = .next u :=
  ⟨by decide, by decide, _, _, rfl, rfl⟩

/-- A least held key 0, a least held key 15, and no key. -/
theorem witness_KeyWaitTakesTheLowestHeldKey :
    ((State.reset.setKeyBit 0 true).key 0 = true ∧ ∀ j, j < 0 → (State.reset.setKeyBit 0 true).key j = false) ∧
    ((State.reset.setKeyBit 15 true).key 15 = true ∧ ∀ j, j < 15 → (State.reset.setKeyBit 15 true).key j = false) ∧
    ∀ k, State.reset.key k = false := by decide

theorem witness_KeyWaitHoldsForAnyNumberOfSteps : keyWaiting.fault = .none ∧ keyWaiting.instrAtPc = some (.ldKey 0) ∧
    ∀ j, keyWaiting.key j = false := by decide

theorem witness_EveryInstructionEndsPcAsListed : exec (.jpV0 0xFFF) (r0 [(0, 0xFF)]) =
    .next ((r0 [(0, 0xFF)]).setPc 0x10FE) := eq_next (by decide)

theorem witness_RandomInputReachesOnlyRnd : (∀ x kk, Instr.cls ≠ .rnd x kk) ∧
    exec .cls .reset = .next (State.reset.setFb Display.blank).advance := ⟨nofun, rfl⟩

theorem witness_IdleStateStays : (placed 0x1200 .reset).Idle := ⟨by decide, 0x200, by decide⟩

/-- The largest image that is accepted, and the smallest that is not. -/
theorem witness_LoadProgramPlacesTheImage : (List.replicate 3584 (0 : Byte)).length ≤ 3584 ∧
    3584 < (List.replicate 3585 (0 : Byte)).length := by rw [List.length_replicate, List.length_replicate]; decide

theorem witness_BootRunsTheFirstInstruction : ([] : List Byte).length + 2 ≤ 3584 ∧
    (List.replicate 3582 (0 : Byte)).length + 2 ≤ 3584 ∧ decodeWord ((0x60 : Byte) ++ (0x05 : Byte)) = .ok (.ldImm 0 5) := by
  rw [List.length_replicate]; decide

/-- Both clauses: the reset, and another command. -/
theorem witness_OnlyResetClearsAFault : underflowed.fault ≠ .none ∧
    perform .reset underflowed = .next (.done, resetCommand underflowed) ∧
    perform .tickTimers underflowed = .next (.done, tickTimers underflowed) := ⟨by decide, rfl, rfl⟩

theorem witness_StepResultTellsTheFault :
    stepCommand 0xA7 (placed 0x00EE .reset) = .next (.stepFault .stackUnderflow, underflowed) ∧
    (nextOf (stepCommand 0xA7 (placed 0xC3FF .reset))).map (fun p => (p.1, p.2.getV 3, p.2.randIn)) =
      some (.stepOk, 0xA7, []) := ⟨eq_next (by decide), by decide⟩

end Sys2Proof.Tests
end

section
/-! PROOF. The state's invariant and what every instruction leaves unchanged (spec 10_state.md): the four statements of that
family, and the field-by-field frame they rest on. -/

namespace Sys2Proof.Machine

/-! ### Frames over fields

`Frame` speaks of what a state reads as; the invariant also speaks of the list that holds the memory. `KeepsFields` is the
frame over the fields themselves, from which both follow. -/

/-- Every V register but those in `rs`, and every field but those of the pieces in `ps`, is the same in `t` as in `s`. -/
structure KeepsFields (rs : List Reg) (ps : List Piece) (s t : State) : Prop where
  v : ∀ r, r ∉ rs → t.getV r = s.getV r
  mem : .mem ∉ ps → t.mem = s.mem
  i : .i ∉ ps → t.i = s.i
  stack : .stack ∉ ps → t.sp = s.sp ∧ t.stack = s.stack
  dt : .dt ∉ ps → t.dt = s.dt
  st : .st ∉ ps → t.st = s.st
  fb : .fb ∉ ps → t.fb = s.fb
  keys : .keys ∉ ps → t.keys = s.keys
  waiting : .waiting ∉ ps → t.waiting = s.waiting
  fault : .fault ∉ ps → t.fault = s.fault
  rand : .rand ∉ ps → t.randIn = s.randIn ∧ t.draws = s.draws

theorem KeepsFields.frame {rs : List Reg} {ps : List Piece} {s t : State} (h : KeepsFields rs ps s t) : Frame rs ps s t :=
  frame_of_fields h.v h.mem h.i h.stack h.dt h.st h.fb h.keys h.waiting h.fault h.rand

/-- Moving PC touches no other field, so it may follow any write. -/
theorem KeepsFields.setPc {rs : List Reg} {ps : List Piece} {s t : State} (h : KeepsFields rs ps s t) (w : Word) :
    KeepsFields rs ps s (t.setPc w) :=
  ⟨h.v, h.mem, h.i, h.stack, h.dt, h.st, h.fb, h.keys, h.waiting, h.fault, h.rand⟩

theorem KeepsFields.advance {rs : List Reg} {ps : List Piece} {s t : State} (h : KeepsFields rs ps s t) :
    KeepsFields rs ps s t.advance := h.setPc _

/-- One write after another: together they may touch what either touches. -/
theorem KeepsFields.trans {rs rs' : List Reg} {ps ps' : List Piece} {s t u : State} (h : KeepsFields rs ps s t)
    (h' : KeepsFields rs' ps' t u) : KeepsFields (rs ++ rs') (ps ++ ps') s u := by
  constructor <;> simp only [List.mem_append, not_or, and_imp]
  case v => exact fun r hr hr' => (h'.v r hr').trans (h.v r hr)
  case mem => exact fun hp hp' => (h'.mem hp').trans (h.mem hp)
  case i => exact fun hp hp' => (h'.i hp').trans (h.i hp)
  case stack =>
    exact fun hp hp' => ⟨(h'.stack hp').1.trans (h.stack hp).1, (h'.stack hp').2.trans (h.stack hp).2⟩
  case dt => exact fun hp hp' => (h'.dt hp').trans (h.dt hp)
  case st => exact fun hp hp' => (h'.st hp').trans (h.st hp)
  case fb => exact fun hp hp' => (h'.fb hp').trans (h.fb hp)
  case keys => exact fun hp hp' => (h'.keys hp').trans (h.keys hp)
  case waiting => exact fun hp hp' => (h'.waiting hp').trans (h.waiting hp)
  case fault => exact fun hp hp' => (h'.fault hp').trans (h.fault hp)
  case rand => exact fun hp hp' => ⟨(h'.rand hp').1.trans (h.rand hp).1, (h'.rand hp').2.trans (h.rand hp).2⟩

/-- A frame stays true when more is listed. -/
theorem KeepsFields.mono {rs rs' : List Reg} {ps ps' : List Piece} {s t : State} (h : KeepsFields rs ps s t)
    (hrs : rs ⊆ rs') (hps : ps ⊆ ps') : KeepsFields rs' ps' s t where
  v r hr := h.v r fun hmem => hr (hrs hmem)
  mem hp := h.mem fun hmem => hp (hps hmem)
  i hp := h.i fun hmem => hp (hps hmem)
  stack hp := h.stack fun hmem => hp (hps hmem)
  dt hp := h.dt fun hmem => hp (hps hmem)
  st hp := h.st fun hmem => hp (hps hmem)
  fb hp := h.fb fun hmem => hp (hps hmem)
  keys hp := h.keys fun hmem => hp (hps hmem)
  waiting hp := h.waiting fun hmem => hp (hps hmem)
  fault hp := h.fault fun hmem => hp (hps hmem)
  rand hp := h.rand fun hmem => hp (hps hmem)

/-! ### What each write to the state keeps -/

section Writes
variable (s : State)

theorem keepsFields_refl : KeepsFields [] [] s s := by constructor <;> simp

theorem keepsFields_setV (x : Reg) (b : Byte) : KeepsFields [x] [] s (s.setV x b) := by constructor <;> simp +contextual

theorem keepsFields_setFlagThenV (f : Byte) (x : Reg) (b : Byte) : KeepsFields [vF, x] [] s (s.setFlagThenV f x b) :=
  (keepsFields_setV s vF f).trans (keepsFields_setV _ x b)

theorem keepsFields_setI (w : Word) : KeepsFields [] [.i] s (s.setI w) := by constructor <;> simp

theorem keepsFields_setDt (b : Byte) : KeepsFields [] [.dt] s (s.setDt b) := by constructor <;> simp

theorem keepsFields_setSt (b : Byte) : KeepsFields [] [.st] s (s.setSt b) := by constructor <;> simp

theorem keepsFields_setFb (d : Display) : KeepsFields [] [.fb] s (s.setFb d) := by constructor <;> simp

theorem keepsFields_setWaiting (b : Bool) : KeepsFields [] [.waiting] s (s.setWaiting b) := by constructor <;> simp

theorem keepsFields_takeRand : KeepsFields [] [.rand] s s.takeRand := by constructor <;> simp

theorem keepsFields_memWriteList (a : Nat) (bs : List Byte) : KeepsFields [] [.mem] s (s.memWriteList a bs) := by
  constructor <;> simp

theorem keepsFields_raise (c : FaultCode) : KeepsFields [] [.fault] s (s.raise c) := by constructor <;> simp

theorem keepsFields_push (w : Word) : KeepsFields [] [.stack] s (s.push w) := by constructor <;> simp

theorem keepsFields_pop : KeepsFields [] [.stack] s s.pop := by constructor <;> simp

theorem keepsFields_skipIf (c : Bool) : KeepsFields [] [] s (s.skipIf c) := by
  cases c
  · exact (keepsFields_refl s).advance
  · exact (keepsFields_refl s).setPc _

theorem getV_loadedRegs (x r : Reg) :
    ({ s with v := s.loadedRegs x } : State).getV r = if r ≤ x then s.memRead (s.ea r.val) else s.getV r := by
  simp [State.getV, State.loadedRegs]

theorem keepsFields_loadedRegs (x : Reg) :
    KeepsFields ((List.finRange 16).filter (· ≤ x)) [] s { s with v := s.loadedRegs x } where
  v r hr := by
    have hx : ¬r ≤ x := by simpa using hr
    rw [getV_loadedRegs, if_neg hx]
  mem _ := rfl
  i _ := rfl
  stack _ := ⟨rfl, rfl⟩
  dt _ := rfl
  st _ := rfl
  fb _ := rfl
  keys _ := rfl
  waiting _ := rfl
  fault _ := rfl
  rand _ := ⟨rfl, rfl⟩

end Writes

/-! ### The three instructions with two outcomes -/

/-- `RET` on an empty stack faults, else it pops (40_flow.md R82). -/
theorem execRet_cases (s : State) :
    (s.sp.val = 0 ∧ execRet s = .next (s.raise .stackUnderflow)) ∨
    (s.sp.val ≠ 0 ∧ execRet s = .next (s.setPc (s.slot s.sp + 2)).pop) := by
  by_cases h : s.sp.val = 0
  · exact .inl ⟨h, if_pos h⟩
  · exact .inr ⟨h, if_neg h⟩

/-- `CALL` on a full stack faults, else it pushes (40_flow.md R84). -/
theorem execCall_cases (nnn : Addr12) (s : State) :
    (s.sp.val = 15 ∧ execCall nnn s = .next (s.raise .stackOverflow)) ∨
    (s.sp.val ≠ 15 ∧ execCall nnn s = .next ((s.push s.pc).setPc (zextAddr nnn))) := by
  by_cases h : s.sp.val = 15
  · exact .inl ⟨h, if_pos h⟩
  · exact .inr ⟨h, if_neg h⟩

/-- `LD Vx, K` waits with no key held, else it takes the lowest (45_timers_keys.md R141). -/
theorem execLdKey_cases (x : Reg) (s : State) :
    execLdKey x s = .next (s.setWaiting true) ∨
    ∃ k, execLdKey x s = .next ((s.setV x (keyByte k)).setWaiting false).advance := by
  unfold execLdKey
  cases s.lowestHeldKey with
  | none => exact .inl rfl
  | some k => exact .inr ⟨k, rfl⟩

/-! ### Every instruction stays in its frame -/

/-- What an instruction touches, field by field. -/
theorem exec_keepsFields (i : Instr) (s : State) :
    ∃ t, exec i s = .next t ∧ KeepsFields (writtenRegs i) (writtenPieces i) s t := by
  cases i with
  | cls => exact ⟨_, rfl, (keepsFields_setFb s _).advance⟩
  | ret =>
    rcases execRet_cases s with ⟨-, h⟩ | ⟨-, h⟩
    · exact ⟨_, h, (keepsFields_raise s _).mono (by simp) (by simp [writtenPieces])⟩
    · exact ⟨_, h, (((keepsFields_refl s).setPc _).trans (keepsFields_pop _)).mono (by simp) (by simp [writtenPieces])⟩
  | call nnn =>
    rcases execCall_cases nnn s with ⟨-, h⟩ | ⟨-, h⟩
    · exact ⟨_, h, (keepsFields_raise s _).mono (by simp) (by simp [writtenPieces])⟩
    · exact ⟨_, h, ((keepsFields_push s _).setPc _).mono (by simp) (by simp [writtenPieces])⟩
  | jp | jpV0 => exact ⟨_, rfl, (keepsFields_refl s).setPc _⟩
  | seImm | sneImm | seReg | sneReg | skp | sknp => exact ⟨_, rfl, keepsFields_skipIf s _⟩
  | ldImm | addImm | ldReg | orReg | andReg | xorReg | ldFromDt => exact ⟨_, rfl, (keepsFields_setV s _ _).advance⟩
  | addReg | subReg | shr | subnReg | shl => exact ⟨_, rfl, (keepsFields_setFlagThenV s _ _ _).advance⟩
  | rnd => exact ⟨_, rfl, ((keepsFields_takeRand s).trans (keepsFields_setV _ _ _)).advance⟩
  | drw => exact ⟨_, rfl, ((keepsFields_setFb s _).trans (keepsFields_setV _ _ _)).advance⟩
  | ldKey x =>
    rcases execLdKey_cases x s with h | ⟨k, h⟩
    · exact ⟨_, h, (keepsFields_setWaiting s true).mono (by simp) (by simp [writtenPieces])⟩
    · exact ⟨_, h, ((keepsFields_setV s _ _).trans (keepsFields_setWaiting _ _)).advance⟩
  | ldDt => exact ⟨_, rfl, (keepsFields_setDt s _).advance⟩
  | ldSt => exact ⟨_, rfl, (keepsFields_setSt s _).advance⟩
  | ldI | addI | ldFont => exact ⟨_, rfl, (keepsFields_setI s _).advance⟩
  | ldBcd | storeRegs => exact ⟨_, rfl, (keepsFields_memWriteList s _ _).advance⟩
  | loadRegs x => exact ⟨_, rfl, (keepsFields_loadedRegs s x).advance⟩

theorem keepsFields_of_exec {i : Instr} {s t : State} (h : exec i s = .next t) :
    KeepsFields (writtenRegs i) (writtenPieces i) s t := by
  obtain ⟨u, hu, hk⟩ := exec_keepsFields i s
  cases hu.symm.trans h
  exact hk

/-- Settles O41: each instruction is a composition of writes, and each write keeps the fields it does not name. -/
theorem everyInstructionStaysInItsFrame : Obligations.EveryInstructionStaysInItsFrame := by
  intro i s
  obtain ⟨t, h, hk⟩ := exec_keepsFields i s
  exact ⟨t, h, hk.frame⟩

/-! ### Which instructions may touch memory, WAITING and FAULT -/

theorem mem_mem_writtenPieces {i : Instr} :
    .mem ∈ writtenPieces i ↔ (∃ x, i = .ldBcd x) ∨ ∃ x, i = .storeRegs x := by
  cases i <;> simp [writtenPieces]

theorem waiting_mem_writtenPieces {i : Instr} : .waiting ∈ writtenPieces i ↔ ∃ x, i = .ldKey x := by
  cases i <;> simp [writtenPieces]

theorem fault_mem_writtenPieces {i : Instr} : .fault ∈ writtenPieces i ↔ i = .ret ∨ ∃ nnn, i = .call nnn := by
  cases i <;> simp [writtenPieces]

/-- Every instruction keeps the memory's canonical form: the two that store do so through `memWriteList`. -/
theorem wf_of_exec {i : Instr} {s t : State} (h : exec i s = .next t) (hwf : s.mem.wf = true) : t.mem.wf = true := by
  by_cases hm : .mem ∈ writtenPieces i
  · rcases mem_mem_writtenPieces.mp hm with ⟨x, rfl⟩ | ⟨x, rfl⟩
    · cases h
      exact wf_memWriteList _ _ hwf
    · cases h
      exact wf_memWriteList _ _ hwf
  · rwa [(keepsFields_of_exec h).mem hm]

/-! ### The invariant -/

/-- A state that neither waits nor is faulted owes the invariant its memory alone. -/
theorem inv_of_running {s : State} (hwf : s.mem.wf = true) (hw : s.waiting = false) (hf : s.fault = .none) : s.Inv where
  mem_wf := hwf
  waiting_at_key_wait h := by simp [hw] at h
  overflow_at_call h := by simp [hf] at h
  underflow_at_ret h := by simp [hf] at h

/-- Away from a key-wait nothing waits. -/
theorem State.Inv.waiting_eq_false {s : State} (h : s.Inv) (hi : ∀ x, s.instrAtPc ≠ some (.ldKey x)) :
    s.waiting = false := by
  by_contra hw
  obtain ⟨x, hx⟩ := h.waiting_at_key_wait (by simpa using hw)
  exact hi x hx

/-- Executing the key-wait at PC: it stays there waiting, or goes on without waiting. -/
theorem inv_of_execLdKey {s t : State} {x : Reg} (h : s.Inv) (hf : s.fault = .none)
    (hi : s.instrAtPc = some (.ldKey x)) (he : execLdKey x s = .next t) : t.Inv := by
  rcases execLdKey_cases x s with hn | ⟨k, hn⟩
  · cases hn.symm.trans he
    have hit : (s.setWaiting true).instrAtPc = some (.ldKey x) := (instrAtPc_congr rfl rfl).trans hi
    exact ⟨h.mem_wf, fun _ => ⟨x, hit⟩, by simp [hf], by simp [hf]⟩
  · cases hn.symm.trans he
    exact inv_of_running h.mem_wf rfl hf

/-- Executing the `CALL` at PC: it faults there with the stack full, or pushes. -/
theorem inv_of_execCall {s t : State} {nnn : Addr12} (h : s.Inv) (hf : s.fault = .none)
    (hi : s.instrAtPc = some (.call nnn)) (he : execCall nnn s = .next t) : t.Inv := by
  have hw : s.waiting = false := h.waiting_eq_false (by simp [hi])
  rcases execCall_cases nnn s with ⟨hsp, hn⟩ | ⟨-, hn⟩
  · cases hn.symm.trans he
    have hit : (s.raise .stackOverflow).instrAtPc = some (.call nnn) := (instrAtPc_congr rfl rfl).trans hi
    exact ⟨h.mem_wf, by simp [hw], fun _ => ⟨hsp, nnn, hit⟩, by simp⟩
  · cases hn.symm.trans he
    exact inv_of_running h.mem_wf hw hf

/-- Executing the `RET` at PC: it faults there with the stack empty, or pops. -/
theorem inv_of_execRet {s t : State} (h : s.Inv) (hf : s.fault = .none)
    (hi : s.instrAtPc = some .ret) (he : execRet s = .next t) : t.Inv := by
  have hw : s.waiting = false := h.waiting_eq_false (by simp [hi])
  rcases execRet_cases s with ⟨hsp, hn⟩ | ⟨-, hn⟩
  · cases hn.symm.trans he
    have hit : (s.raise .stackUnderflow).instrAtPc = some .ret := (instrAtPc_congr rfl rfl).trans hi
    exact ⟨h.mem_wf, by simp [hw], by simp, fun _ => ⟨hsp, hit⟩⟩
  · cases hn.symm.trans he
    exact inv_of_running h.mem_wf hw hf

/-- Executing the instruction at PC keeps the invariant. Only the key-wait, `CALL` and `RET` may set WAITING or FAULT; after
any other instruction the machine still runs. -/
theorem inv_of_exec {s t : State} {i : Instr} (h : s.Inv) (hf : s.fault = .none) (hi : s.instrAtPc = some i)
    (he : exec i s = .next t) : t.Inv := by
  by_cases hwait : .waiting ∈ writtenPieces i
  · obtain ⟨x, rfl⟩ := waiting_mem_writtenPieces.mp hwait
    exact inv_of_execLdKey h hf hi he
  by_cases hfault : .fault ∈ writtenPieces i
  · rcases fault_mem_writtenPieces.mp hfault with rfl | ⟨nnn, rfl⟩
    · exact inv_of_execRet h hf hi he
    · exact inv_of_execCall h hf hi he
  have hk := keepsFields_of_exec he
  have hw : s.waiting = false := h.waiting_eq_false fun x hx =>
    hwait (waiting_mem_writtenPieces.mpr ⟨x, Option.some.inj (hi.symm.trans hx)⟩)
  exact inv_of_running (wf_of_exec he h.mem_wf) ((hk.waiting hwait).trans hw) ((hk.fault hfault).trans hf)

/-- Settles O11, by the three ways a step goes. -/
theorem stepKeepsTheInvariant : Obligations.StepKeepsTheInvariant := by
  intro s t h hstep
  rcases step_cases s with ⟨-, hs⟩ | ⟨hf, ⟨e, hd⟩, hs⟩ | ⟨hf, i, hd, hs⟩
  · cases hs.symm.trans hstep
    exact h
  · cases hs.symm.trans hstep
    have hw : s.waiting = false := h.waiting_eq_false fun x hx => by simp [instrAtPc_eq_some.mp hx] at hd
    exact inv_of_running h.mem_wf hw hf
  · exact inv_of_exec h hf (instrAtPc_eq_some.mpr hd) (hs.symm.trans hstep)

/-- Settles O10: after reset the machine runs, and its memory has no entry. -/
theorem resetMeetsTheInvariant : Obligations.ResetMeetsTheInvariant := inv_of_running wf_reset rfl rfl

/-! ### The outputs -/

/-- The bit order of decision D24. -/
theorem getLsbD_fbOut (s : State) (cx : Fin 64) (cy : Fin 32) :
    s.fbOut.getLsbD (64 * cy.val + cx.val) = s.pixel cx cy := by
  have hj : 64 * cy.val + cx.val < 2048 := by omega
  have hx : wrapCol (64 * cy.val + cx.val) = cx := Fin.ext (by rw [wrapCol_val]; omega)
  have hy : wrapRow ((64 * cy.val + cx.val) / 64) = cy := Fin.ext (by rw [wrapRow_val]; omega)
  simp [State.fbOut, hj, hx, hy]

theorem tone_eq_true {s : State} : s.tone = true ↔ s.st.toNat ≠ 0 := by
  simp [State.tone, ← BitVec.toNat_inj]

/-- The codes of decision D5 tell the three values of FAULT apart. -/
theorem FaultCode.code_inj {c d : FaultCode} : c.code = d.code ↔ c = d := by
  cases c <;> cases d <;> decide

theorem FaultCode.code_ne_three (c : FaultCode) : c.code ≠ 3 := by
  cases c <;> decide

/-- Settles O50, port by port. -/
theorem portsShowTheState : Obligations.PortsShowTheState := fun s =>
  ⟨getLsbD_fbOut s, rfl, tone_eq_true, FaultCode.code_inj (d := .none), FaultCode.code_inj (d := .stackOverflow),
    FaultCode.code_inj (d := .stackUnderflow), s.fault.code_ne_three⟩

end Sys2Proof.Machine
end

section
/-! PROOF. Code and data are one memory (spec 20_memory.md): what a store of registers leaves to be read, and that the next
fetch reads it. -/

namespace Sys2Proof.Machine

/-! ### The bytes that `LD [I], Vx` stores -/

theorem length_regsUpTo (s : State) (x : Reg) : (s.regsUpTo x).length = x.val + 1 := by
  simp only [State.regsUpTo, List.length_take, Vector.length_toList]
  omega

theorem getElem_regsUpTo (s : State) (x r : Reg) (h : r.val < (s.regsUpTo x).length) :
    (s.regsUpTo x)[r.val] = s.getV r := by
  simp [State.regsUpTo, State.getV]

/-- The store reads back register by register, also where the addresses wrap past 0xFFF (43_index_memory.md R124). -/
theorem memRead_storedRegs (s : State) (x r : Reg) (h : r ≤ x) :
    (s.memWriteList (s.ea 0) (s.regsUpTo x)).memRead (s.ea r.val) = s.getV r := by
  have hlen := length_regsUpTo s x
  have hr : r.val < (s.regsUpTo x).length := by
    rw [hlen]
    exact Nat.lt_succ_of_le h
  calc (s.memWriteList (s.ea 0) (s.regsUpTo x)).memRead (s.ea r.val)
      = (s.regsUpTo x)[r.val] := memRead_memWriteList s s.i.toNat r.val _ (by omega) hr
    _ = s.getV r := getElem_regsUpTo s x r hr

/-! ### The next fetch -/

/-- Where I is PC + 2 without wrapping, I is the address the next fetch starts at. -/
theorem toNat_pc_add_two {s : State} (h : s.i.toNat = s.pc.toNat + 2) : (s.pc + 2).toNat = s.i.toNat := by
  have hlt := s.i.isLt
  rw [BitVec.toNat_add, h]
  exact Nat.mod_eq_of_lt (h ▸ hlt)

/-- Settles O34: the two bytes of the word at the new PC are at I and I + 1, the addresses of V0 and V1 in the store. -/
theorem storedWordIsFetchedNext : Obligations.StoredWordIsFetchedNext := by
  intro s x hx hi
  have h0 := memRead_storedRegs s x 0 (Fin.zero_le x)
  have h1 := memRead_storedRegs s x 1 hx
  refine ⟨_, rfl, ?_⟩
  rw [State.wordAtPc, advance_pc, memWriteList_pc, toNat_pc_add_two hi]
  exact congrArg₂ wordOfBytes h0 h1

end Sys2Proof.Machine
end

section
/-! PROOF. Decoding and encoding (spec 30_encoding.md R60 to R67): the decoder undoes the encoder, the encoder undoes the
decoder up to the don't-care bits, the decoder follows the opcode map, and the words it rejects. -/

namespace Sys2Proof

/-! ### Encoding, then decoding -/

theorem decode_bytesOfWord {w : Word} {i : Instr} (rest : List Byte) (h : decodeWord w = .ok i) :
    decode (bytesOfWord w ++ rest) = .ok (i, rest) := by
  simp only [bytesOfWord, List.cons_append, List.nil_append, decode_cons_cons, wordOfBytes_bytesOfWord, h]

/-- The decoder undoes the encoder. The fields of an encoded word are the operands and the fixed fields of its row, format by
format. -/
@[simp] theorem decodeWord_encodeWord (i : Instr) : decodeWord (encodeWord i) = .ok i := by
  cases i with
  | cls | ret => rfl
  | jp | call | ldI | jpV0 => simp [encodeWord, decodeWord, fields_wordNnn]
  | seImm | sneImm | ldImm | addImm | rnd => simp [encodeWord, decodeWord, fields_wordXkk]
  | seReg | sneReg | drw => simp [encodeWord, decodeWord, fields_wordXyn]
  | ldReg | orReg | andReg | xorReg | addReg | subReg | shr | subnReg | shl =>
    simp [encodeWord, decodeWord, decodeClass8, fields_wordXyn]
  | skp | sknp => simp [encodeWord, decodeWord, decodeClassE, fields_wordXkk]
  | ldFromDt | ldKey | ldDt | ldSt | addI | ldFont | ldBcd | storeRegs | loadRegs =>
    simp [encodeWord, decodeWord, decodeClassF, fields_wordXkk]

/-- Settles O1. Every instruction is well formed, so the premise is not needed. -/
theorem decodeOfEncodeIsIdentity : Obligations.DecodeOfEncodeIsIdentity := fun i rest _ =>
  decode_bytesOfWord rest (decodeWord_encodeWord i)

/-! ### A word put together again from its fields -/

theorem word_and_ffff (w : Word) : w &&& 0xFFFF = w := BitVec.eq_of_toNat_eq (and_ffff w)

section Fields
variable {w : Word} {op : BitVec 4} (hop : fieldOp w = op)
include hop

theorem wordNnn_fields : wordNnn op (fieldNnn w) = w := by
  apply BitVec.eq_of_toNat_eq
  rw [wordNnn_toNat, ← hop, fieldOp_toNat, fieldNnn_toNat]
  omega

theorem wordXkk_fields {kk : Byte} (hkk : fieldKk w = kk) : wordXkk op (fieldX w) kk = w := by
  apply BitVec.eq_of_toNat_eq
  rw [wordXkk_toNat, ← hop, ← hkk, fieldOp_toNat, fieldX_val, fieldKk_toNat]
  omega

theorem wordXyn_fields {n : Fin 16} (hn : (fieldN w).val = n.val) : wordXyn op (fieldX w) (fieldY w) n = w := by
  apply BitVec.eq_of_toNat_eq
  rw [wordXyn_toNat, ← hop, ← hn, fieldOp_toNat, fieldX_val, fieldY_val, fieldN_val]
  omega

/-- The low nibble written as 0, as in 5xy0 and 9xy0 (R67). -/
theorem wordXyn_zero_fields : wordXyn op (fieldX w) (fieldY w) 0 = w &&& 0xFFF0 := by
  apply BitVec.eq_of_toNat_eq
  rw [and_fff0, wordXyn_toNat, ← hop, fieldOp_toNat, fieldX_val, fieldY_val]
  simp only [Fin.val_zero]
  omega

/-- `y` written as 0, as in 8x06 and 8x0E (R67, log 6). -/
theorem wordXyn_fields_zero {n : Fin 16} (hn : (fieldN w).val = n.val) : wordXyn op (fieldX w) 0 n = w &&& 0xFF0F := by
  apply BitVec.eq_of_toNat_eq
  rw [and_ff0f, wordXyn_toNat, ← hop, ← hn, fieldOp_toNat, fieldX_val, fieldN_val]
  simp only [Fin.val_zero]
  omega

end Fields

/-! ### Decoding, then encoding -/

theorem encodeWord_of_decodeClass0 {w : Word} {i : Instr} (hop : fieldOp w = 0x0) (h : decodeClass0 w = .ok i) :
    encodeWord i = w &&& usedBits i := by
  unfold decodeClass0 at h
  split at h <;> cases h
  all_goals
    next hn => rw [← wordNnn_fields hop, hn]; rfl

theorem encodeWord_of_decodeClass8 {w : Word} {i : Instr} (hop : fieldOp w = 0x8) (h : decodeClass8 w = .ok i) :
    encodeWord i = w &&& usedBits i := by
  unfold decodeClass8 at h
  split at h <;> cases h
  case h_7 hn => exact wordXyn_fields_zero hop hn
  case h_9 hn => exact wordXyn_fields_zero hop hn
  all_goals
    next hn => exact (wordXyn_fields hop hn).trans (word_and_ffff w).symm

theorem encodeWord_of_decodeClassE {w : Word} {i : Instr} (hop : fieldOp w = 0xE) (h : decodeClassE w = .ok i) :
    encodeWord i = w &&& usedBits i := by
  unfold decodeClassE at h
  split at h <;> cases h
  all_goals
    next hkk => exact (wordXkk_fields hop hkk).trans (word_and_ffff w).symm

theorem encodeWord_of_decodeClassF {w : Word} {i : Instr} (hop : fieldOp w = 0xF) (h : decodeClassF w = .ok i) :
    encodeWord i = w &&& usedBits i := by
  unfold decodeClassF at h
  split at h <;> cases h
  all_goals
    next hkk => exact (wordXkk_fields hop hkk).trans (word_and_ffff w).symm

/-- Settles O2: class by class, the word put together again from its fields. -/
theorem encodeOfDecodeKeepsTheUsedBits : Obligations.EncodeOfDecodeKeepsTheUsedBits := by
  intro w i h
  unfold decodeWord at h
  split at h
  case h_1 hop => exact encodeWord_of_decodeClass0 hop h
  case h_9 hop => exact encodeWord_of_decodeClass8 hop h
  case h_15 hop => exact encodeWord_of_decodeClassE hop h
  case h_16 =>
    have hop : fieldOp w = 0xF := by simp only [imp_false] at *; bv_omega
    exact encodeWord_of_decodeClassF hop h
  case h_2 hop | h_3 hop | h_11 hop | h_12 hop =>
    cases h
    exact (wordNnn_fields hop).trans (word_and_ffff w).symm
  case h_4 hop | h_5 hop | h_7 hop | h_8 hop | h_13 hop =>
    cases h
    exact (wordXkk_fields hop rfl).trans (word_and_ffff w).symm
  case h_6 hop | h_10 hop =>
    cases h
    exact wordXyn_zero_fields hop
  case h_14 hop =>
    cases h
    exact (wordXyn_fields hop rfl).trans (word_and_ffff w).symm

/-! ### The decoder and the opcode map -/

/-- The row of the instruction that a word decodes to. -/
def rowOfWord (w : Word) : Except Reject Row := (decodeWord w).map rowOf

theorem rowOfWord_eq_ok {w : Word} {r : Row} : rowOfWord w = .ok r ↔ ∃ i, decodeWord w = .ok i ∧ rowOf i = r := by
  unfold rowOfWord
  cases decodeWord w <;> simp [Except.map]

theorem fieldOp_and {m : Word} (w : Word) (h : fieldOp m = 0xF) : fieldOp (w &&& m) = fieldOp w := by
  rw [fieldOp, BitVec.extractLsb'_and, ← fieldOp, ← fieldOp, h]
  exact BitVec.and_allOnes

theorem fieldKk_and {m : Word} (w : Word) (h : fieldKk m = 0xFF) : fieldKk (w &&& m) = fieldKk w := by
  rw [fieldKk, BitVec.extractLsb'_and, ← fieldKk, ← fieldKk, h]
  exact BitVec.and_allOnes

theorem fieldNnn_and {m : Word} (w : Word) (h : fieldNnn m = 0xFFF) : fieldNnn (w &&& m) = fieldNnn w := by
  rw [fieldNnn, BitVec.extractLsb'_and, ← fieldNnn, ← fieldNnn, h]
  exact BitVec.and_allOnes

theorem fieldN_and {m : Word} (w : Word) (h : fieldN m = 0xF) : fieldN (w &&& m) = fieldN w := by
  have hm : m.extractLsb' 0 4 = 0xF := BitVec.toFin_inj.mp h
  rw [fieldN, BitVec.extractLsb'_and, hm, fieldN]
  exact congrArg BitVec.toFin BitVec.and_allOnes

/-- Decoding is in two levels (R64): the class and, in the four overloaded classes, the discriminant select the row. The other
bits of the word are operands or are not looked at. -/
theorem rowOfWord_congr {w w' : Word} (hop : fieldOp w = fieldOp w')
    (h0 : fieldOp w' = 0x0 → fieldNnn w = fieldNnn w') (h8 : fieldOp w' = 0x8 → fieldN w = fieldN w')
    (hEF : fieldOp w' = 0xE ∨ fieldOp w' = 0xF → fieldKk w = fieldKk w') : rowOfWord w = rowOfWord w' := by
  unfold rowOfWord decodeWord
  rw [hop]
  split
  case h_1 h =>
    unfold decodeClass0
    rw [h0 h]
  case h_9 h =>
    unfold decodeClass8
    rw [h8 h]
    split <;> rfl
  case h_15 h =>
    unfold decodeClassE
    rw [hEF (.inl h)]
    split <;> rfl
  case h_16 =>
    have h : fieldOp w' = 0xF := by simp only [imp_false] at *; bv_omega
    unfold decodeClassF
    rw [hEF (.inr h)]
    split <;> rfl
  all_goals rfl

/-- Each row's mask keeps the class, and in an overloaded class the discriminant. -/
theorem mask_keeps_discriminant : ∀ r ∈ opcodeTable, fieldOp r.mask = 0xF ∧
    (fieldOp r.code = 0x0 → fieldNnn r.mask = 0xFFF) ∧ (fieldOp r.code = 0x8 → fieldN r.mask = 0xF) ∧
    (fieldOp r.code = 0xE ∨ fieldOp r.code = 0xF → fieldKk r.mask = 0xFF) := by
  decide

/-- Each row's fixed bits, with every operand 0, are a word of that row. -/
theorem rowOfWord_code : ∀ r ∈ opcodeTable, rowOfWord r.code = .ok r := by
  decide

/-- A word that matches a row of the map decodes to an instruction of that row. -/
theorem rowOfWord_of_matches {w : Word} {r : Row} (hr : r ∈ opcodeTable) (h : w &&& r.mask = r.code) :
    rowOfWord w = .ok r := by
  obtain ⟨hop, h0, h8, hEF⟩ := mask_keeps_discriminant r hr
  rw [← rowOfWord_code r hr]
  apply rowOfWord_congr <;> rw [← h]
  · exact (fieldOp_and w hop).symm
  · exact fun hc => (fieldNnn_and w (h0 (h ▸ hc))).symm
  · exact fun hc => (fieldN_and w (h8 (h ▸ hc))).symm
  · exact fun hc => (fieldKk_and w (hEF (h ▸ hc))).symm

open Laws.EncodedInItsRow in
/-- `Laws.EncodedInItsRow`, for all instructions at once. -/
theorem encodedInItsRow (i : Instr) : Laws.EncodedInItsRow.Statement i := by
  cases i
  exacts [cls, ret, jp _, call _, seImm _ _, sneImm _ _, seReg _ _, ldImm _ _, addImm _ _, ldReg _ _, orReg _ _,
    andReg _ _, xorReg _ _, addReg _ _, subReg _ _, shr _, subnReg _ _, shl _, sneReg _ _, ldI _, jpV0 _, rnd _ _,
    drw _ _ _, skp _, sknp _, ldFromDt _, ldKey _, ldDt _, ldSt _, addI _, ldFont _, ldBcd _, storeRegs _, loadRegs _]

/-- The bits a row fixes are never don't-care bits. -/
theorem and_usedBits_and_mask (w : Word) (i : Instr) : w &&& usedBits i &&& (rowOf i).mask = w &&& (rowOf i).mask := by
  have h : usedBits i &&& (rowOf i).mask = (rowOf i).mask := by cases i <;> (simp only [usedBits, rowOf]; decide)
  rw [BitVec.and_assoc, h]

/-- A word that decodes to an instruction matches that instruction's row. -/
theorem matches_rowOf {w : Word} {i : Instr} (h : decodeWord w = .ok i) : w &&& (rowOf i).mask = (rowOf i).code := by
  rw [← and_usedBits_and_mask, ← encodeOfDecodeKeepsTheUsedBits w i h]
  exact (encodedInItsRow i).2

/-- Settles O3. No two rows match one word, because the decoder answers one instruction. -/
theorem decoderFollowsTheOpcodeMap : Obligations.DecoderFollowsTheOpcodeMap := by
  refine ⟨rfl, fun w r₁ r₂ hr₁ hr₂ h₁ h₂ => ?_, fun w i h => ⟨(encodedInItsRow i).1, matches_rowOf h⟩,
    fun w r hr h => rowOfWord_eq_ok.mp (rowOfWord_of_matches hr h)⟩
  exact Except.ok.inj ((rowOfWord_of_matches hr₁ h₁).symm.trans (rowOfWord_of_matches hr₂ h₂))

/-! ### The words the decoder rejects (R66)

In each overloaded class the decoder's last arm is the reject, taken where the discriminant is none of the listed ones. -/

theorem decodeClass0_rejects {w : Word} :
    (∃ e, decodeClass0 w = .error e) ↔ w.toNat % 4096 ≠ 0x0E0 ∧ w.toNat % 4096 ≠ 0x0EE := by
  rw [← fieldNnn_toNat]
  unfold decodeClass0
  split
  case h_3 => exact iff_of_true ⟨_, rfl⟩ (by simp_all [← BitVec.toNat_inj])
  all_goals
    next h => simp [h]

theorem decodeClass8_rejects {w : Word} :
    (∃ e, decodeClass8 w = .error e) ↔ w.toNat % 16 ∈ [0x8, 0x9, 0xA, 0xB, 0xC, 0xD, 0xF] := by
  rw [← fieldN_val]
  unfold decodeClass8
  split
  case h_10 =>
    have hlt := (fieldN w).isLt
    refine iff_of_true ⟨_, rfl⟩ ?_
    simp only [imp_false, List.mem_cons, List.not_mem_nil, or_false] at *
    omega
  all_goals
    next h => simp [h]

theorem decodeClassE_rejects {w : Word} : (∃ e, decodeClassE w = .error e) ↔ w.toNat % 256 ∉ [0x9E, 0xA1] := by
  rw [← fieldKk_toNat]
  unfold decodeClassE
  split
  case h_3 => exact iff_of_true ⟨_, rfl⟩ (by simp_all [← BitVec.toNat_inj])
  all_goals
    next h => simp [h]

theorem decodeClassF_rejects {w : Word} : (∃ e, decodeClassF w = .error e) ↔
    w.toNat % 256 ∉ [0x07, 0x0A, 0x15, 0x18, 0x1E, 0x29, 0x33, 0x55, 0x65] := by
  rw [← fieldKk_toNat]
  unfold decodeClassF
  split
  case h_10 => exact iff_of_true ⟨_, rfl⟩ (by simp_all [← BitVec.toNat_inj])
  all_goals
    next h => simp [h]

/-- Settles O4, class by class. -/
theorem unrecognisedWordsAreTheListedOnes : Obligations.UnrecognisedWordsAreTheListedOnes := by
  intro w
  rw [← decodeClass0_rejects, ← decodeClass8_rejects, ← decodeClassE_rejects, ← decodeClassF_rejects, ← fieldOp_toNat]
  unfold decodeWord
  split
  case h_16 =>
    have hop : fieldOp w = 0xF := by simp only [imp_false] at *; bv_omega
    simp [hop]
  all_goals
    next hop => simp [hop]

end Sys2Proof

namespace Sys2Proof.Machine

/-! ### Stepping over a rejected word -/

/-- Settles O7: the step is `advance`, which moves PC alone. -/
theorem stepAdvancesOverUnrecognisedWords : Obligations.StepAdvancesOverUnrecognisedWords := by
  intro s e hf h
  refine ⟨s.advance, step_of_reject hf h, pcPlus_advance s, (keepsFields_refl s).advance.frame, ?_⟩
  simp [stepResult, hf]

end Sys2Proof.Machine
end

section
/-! PROOF. The step and the control transfers (spec 40_flow.md): a step runs the instruction at PC, the four transfers, the idle
state, and that the random input reaches `RND` alone. -/

namespace Sys2Proof

/-- The words of format NNN as the numbers the spec writes them with (30_encoding.md R62). -/
theorem ofNat_eq_wordNnn (op : BitVec 4) (nnn : Addr12) :
    BitVec.ofNat 16 (4096 * op.toNat + nnn.toNat) = wordNnn op nnn := by
  rw [← wordNnn_toNat, BitVec.ofNat_toNat, BitVec.setWidth_eq]

end Sys2Proof

namespace Sys2Proof.Machine

/-! ### One step -/

/-- Settles O6. Every instruction is well formed, so that premise is not needed. -/
theorem stepRunsTheDecodedInstruction : Obligations.StepRunsTheDecodedInstruction := fun _ _ hf _ hd =>
  step_of_decode hf hd

/-! ### The jumps -/

/-- Settles O22: the word is the encoding of the jump, which moves PC alone. -/
theorem jumpSetsPc : Obligations.JumpSetsPc := by
  intro s nnn
  refine ⟨?_, _, rfl, zextAddr_toNat nnn, ((keepsFields_refl s).setPc _).frame⟩
  exact (congrArg decodeWord (ofNat_eq_wordNnn 0x1 nnn)).trans (decodeWord_encodeWord (.jp nnn))

/-- A 12-bit address and a byte add up to at most 10FE, so the 16-bit sum is exact. -/
theorem zextAddr_add_zextByte_toNat (nnn : Addr12) (b : Byte) :
    (zextAddr nnn + zextByte b).toNat = nnn.toNat + b.toNat := by
  rw [BitVec.toNat_add, zextAddr_toNat, zextByte_toNat]
  omega

/-- Settles O23. -/
theorem indexedJumpAddsV0 : Obligations.IndexedJumpAddsV0 := fun s nnn =>
  ⟨_, rfl, zextAddr_add_zextByte_toNat nnn (s.getV 0), ((keepsFields_refl s).setPc _).frame⟩

/-- Settles O44: the jump at PC writes to PC what PC holds. -/
theorem idleStateStays : Obligations.IdleStateStays := by
  rintro s ⟨hf, nnn, hi, hpc⟩
  have hzext : zextAddr nnn = s.pc := BitVec.eq_of_toNat_eq ((zextAddr_toNat nnn).trans hpc)
  calc step s = exec (.jp nnn) s := step_of_decode hf (instrAtPc_eq_some.mp hi)
    _ = .next (s.setPc (zextAddr nnn)) := rfl
    _ = .next s := by rw [hzext]; rfl

/-! ### Call and return -/

@[simp] theorem slot_setPc (s : State) (w : Word) (j : Fin 16) : (s.setPc w).slot j = s.slot j := rfl

/-- The state after a `CALL` below the stack's limit. -/
def State.called (s : State) (nnn : Addr12) : State := (s.push s.pc).setPc (zextAddr nnn)

/-- The state after a `RET` with a frame on the stack. -/
def State.returned (s : State) : State := (s.setPc (s.slot s.sp + 2)).pop

theorem exec_call {s : State} (nnn : Addr12) (h : s.sp.val ≠ 15) : exec (.call nnn) s = .next (s.called nnn) := if_neg h

theorem exec_ret {s : State} (h : s.sp.val ≠ 0) : exec .ret s = .next s.returned := if_neg h

theorem keepsFields_called (s : State) (nnn : Addr12) : KeepsFields [] [.stack] s (s.called nnn) :=
  (keepsFields_push s s.pc).setPc _

theorem keepsFields_returned (s : State) : KeepsFields [] [.stack] s s.returned :=
  ((keepsFields_refl s).setPc _).trans (keepsFields_pop _)

theorem sp_called_val {s : State} (nnn : Addr12) (h : s.sp.val ≠ 15) : (s.called nnn).sp.val = s.sp.val + 1 :=
  Fin.val_add_one_of_lt (Fin.lt_last_iff_ne_last.mpr fun e => h (congrArg Fin.val e))

theorem sp_returned_val {s : State} (h : s.sp.val ≠ 0) : s.returned.sp.val = s.sp.val - 1 :=
  Fin.val_sub_one_of_ne_zero fun e => h (congrArg Fin.val e)

/-- The pushed slot, which SP now names, holds the address of the `CALL`. -/
theorem slot_called_sp (s : State) (nnn : Addr12) : (s.called nnn).slot (s.called nnn).sp = s.pc := by
  simp [State.called]

theorem slot_called_of_ne {s : State} {nnn : Addr12} {j : Fin 16} (h : j ≠ (s.called nnn).sp) :
    (s.called nnn).slot j = s.slot j := by
  simp only [State.called, setPc_sp, push_sp] at h
  simp [State.called, h]

theorem pc_returned_toNat (s : State) : s.returned.pc.toNat = ((s.slot s.sp).toNat + 2) % 65536 :=
  BitVec.toNat_add _ _

/-- Settles O24. -/
theorem callPushesItsOwnAddress : Obligations.CallPushesItsOwnAddress := fun s nnn h =>
  ⟨s.called nnn, exec_call nnn h, zextAddr_toNat nnn, sp_called_val nnn h, slot_called_sp s nnn,
    fun _ hj => slot_called_of_ne hj, (keepsFields_called s nnn).frame⟩

/-- Settles O25: popping moves SP and writes no slot. -/
theorem retReturnsPastTheCall : Obligations.RetReturnsPastTheCall := fun s h =>
  ⟨s.returned, exec_ret h, pc_returned_toNat s, sp_returned_val h, fun _ => rfl, (keepsFields_returned s).frame⟩

/-- Settles O27: SP goes up by one and down again, and the slot that `RET` reads is the one `CALL` wrote. -/
theorem callThenRetComesBack : Obligations.CallThenRetComesBack := by
  intro s t nnn h hcall
  cases (exec_call nnn h).symm.trans hcall
  have hsp : (s.called nnn).sp.val ≠ 0 := by
    rw [sp_called_val nnn h]
    exact Nat.succ_ne_zero _
  have hpc : PcPlus 2 s (s.called nnn).returned := by
    rw [PcPlus, pc_returned_toNat, slot_called_sp]
  exact ⟨_, exec_ret hsp, hpc, add_sub_cancel_right s.sp 1, fun _ hj => slot_called_of_ne hj,
    (((keepsFields_called s nnn).trans (keepsFields_returned _)).mono (by simp) (by simp)).frame⟩

/-! ### The random input reaches `RND` alone

Writing another random input commutes with every other instruction: what it reads is the same, and what it writes lies
elsewhere. -/

theorem skipIf_withRand (s : State) (rs : List Byte) (n : Nat) (c : Bool) :
    (s.withRand rs n).skipIf c = (s.skipIf c).withRand rs n := by
  cases c <;> rfl

theorem memWriteList_withRand (s : State) (rs : List Byte) (n a : Nat) (bs : List Byte) :
    (s.withRand rs n).memWriteList a bs = (s.memWriteList a bs).withRand rs n := by
  induction bs generalizing s a with
  | nil => rfl
  | cons b bs ih => exact ih (s.memWrite a b) (a + 1)

theorem execRet_withRand (s : State) (rs : List Byte) (n : Nat) :
    execRet (s.withRand rs n) = mapNext (·.withRand rs n) (execRet s) := by
  rcases execRet_cases s with ⟨h, he⟩ | ⟨h, he⟩ <;> rw [he]
  · exact if_pos h
  · exact if_neg h

theorem execCall_withRand (nnn : Addr12) (s : State) (rs : List Byte) (n : Nat) :
    execCall nnn (s.withRand rs n) = mapNext (·.withRand rs n) (execCall nnn s) := by
  rcases execCall_cases nnn s with ⟨h, he⟩ | ⟨h, he⟩ <;> rw [he]
  · exact if_pos h
  · exact if_neg h

theorem execLdKey_withRand (x : Reg) (s : State) (rs : List Byte) (n : Nat) :
    execLdKey x (s.withRand rs n) = mapNext (·.withRand rs n) (execLdKey x s) := by
  have hkey : (s.withRand rs n).lowestHeldKey = s.lowestHeldKey := rfl
  unfold execLdKey
  rw [hkey]
  cases s.lowestHeldKey <;> rfl

/-- The commuting diagram of an instruction and a change of the random input. -/
theorem exec_withRand {i : Instr} (hi : ∀ x kk, i ≠ .rnd x kk) (s : State) (rs : List Byte) (n : Nat) :
    exec i (s.withRand rs n) = mapNext (·.withRand rs n) (exec i s) := by
  cases i with
  | rnd x kk => exact absurd rfl (hi x kk)
  | ret => exact execRet_withRand s rs n
  | call nnn => exact execCall_withRand nnn s rs n
  | seImm | sneImm | seReg | sneReg | skp | sknp => exact congrArg Host.Outcome.next (skipIf_withRand s rs n _)
  | ldBcd | storeRegs =>
    exact congrArg (fun t : State => Host.Outcome.next t.advance) (memWriteList_withRand s rs n _ _)
  | ldKey x => exact execLdKey_withRand x s rs n
  | cls | jp | jpV0 | ldImm | addImm | ldReg | orReg | andReg | xorReg | addReg | subReg | shr | subnReg | shl | ldI | drw
  | ldFromDt | ldDt | ldSt | addI | ldFont | loadRegs => rfl

/-- Settles O43. -/
theorem randomInputReachesOnlyRnd : Obligations.RandomInputReachesOnlyRnd := by
  intro i s t rs n hi h
  rw [exec_withRand hi, h]
  rfl

end Sys2Proof.Machine
end

section
/-! PROOF. The conditional skips (spec 41_skip.md R90 to R95): each instruction is `skipIf` of a test, and the test is the
comparison its statement names. -/

namespace Sys2Proof

/-! ### The words of formats XKK and XYN as numbers (30_encoding.md R62) -/

theorem ofNat_eq_wordXkk (op : BitVec 4) (x : Reg) (kk : Byte) :
    BitVec.ofNat 16 (4096 * op.toNat + 256 * x.val + kk.toNat) = wordXkk op x kk := by
  rw [← wordXkk_toNat, BitVec.ofNat_toNat, BitVec.setWidth_eq]

theorem ofNat_eq_wordXyn (op : BitVec 4) (x y n : Fin 16) :
    BitVec.ofNat 16 (4096 * op.toNat + 256 * x.val + 16 * y.val + n.val) = wordXyn op x y n := by
  rw [← wordXyn_toNat, BitVec.ofNat_toNat, BitVec.setWidth_eq]

/-! ### The register skips decode whatever the low nibble is (R67, D14) -/

theorem decodeWord_5xyn (x y n : Fin 16) : decodeWord (wordXyn 0x5 x y n) = .ok (.seReg x y) := by
  simp [decodeWord, fields_wordXyn]

theorem decodeWord_9xyn (x y n : Fin 16) : decodeWord (wordXyn 0x9 x y n) = .ok (.sneReg x y) := by
  simp [decodeWord, fields_wordXyn]

end Sys2Proof

namespace Sys2Proof.Machine

/-- An instruction that is `skipIf` of a test skips exactly when what the test decides holds, and moves PC alone. -/
theorem skips_of_exec_eq_skipIf {i : Instr} {s : State} {c : Bool} {p : Prop} (h : exec i s = .next (s.skipIf c))
    (hc : c = true ↔ p) : ∃ t, exec i s = .next t ∧ SkipsIff p s t ∧ Frame [] [] s t := by
  refine ⟨s.skipIf c, h, ?_, skipIf_frame s c⟩
  rw [← hc]
  exact skipsIff_skipIf s c

/-- Settles O19: the words are the encodings of the two instructions, whose tests are `==` and `!=`. -/
theorem immediateSkipsCompare : Obligations.ImmediateSkipsCompare := by
  intro s x kk
  refine ⟨⟨?_, skips_of_exec_eq_skipIf rfl beq_iff_eq⟩, ⟨?_, skips_of_exec_eq_skipIf rfl bne_iff_ne⟩⟩
  · exact (congrArg decodeWord (ofNat_eq_wordXkk 0x3 x kk)).trans (decodeWord_encodeWord (.seImm x kk))
  · exact (congrArg decodeWord (ofNat_eq_wordXkk 0x4 x kk)).trans (decodeWord_encodeWord (.sneImm x kk))

/-- Settles O20. The low nibble is not always 0, so the words are not only those the encoder writes. -/
theorem registerSkipsCompare : Obligations.RegisterSkipsCompare := by
  intro s x y n
  refine ⟨⟨?_, skips_of_exec_eq_skipIf rfl beq_iff_eq⟩, ⟨?_, skips_of_exec_eq_skipIf rfl bne_iff_ne⟩⟩
  · exact (congrArg decodeWord (ofNat_eq_wordXyn 0x5 x y n)).trans (decodeWord_5xyn x y n)
  · exact (congrArg decodeWord (ofNat_eq_wordXyn 0x9 x y n)).trans (decodeWord_9xyn x y n)

/-- Settles O21: the premise says that `k` is the key the model tests. -/
theorem keySkipsTestTheKeyOfTheLowNibble : Obligations.KeySkipsTestTheKeyOfTheLowNibble := by
  intro s x k hk
  have hkey : k = lowNibble (s.getV x) := Fin.ext (hk.trans (lowNibble_val _).symm)
  subst hkey
  exact ⟨skips_of_exec_eq_skipIf rfl Iff.rfl, skips_of_exec_eq_skipIf rfl (by rw [Bool.not_eq_true'])⟩

end Sys2Proof.Machine
end

section
/-! PROOF. Register loads, arithmetic, logic, shifts and the random byte (spec 42_alu.md R100 to R113), and the words written out
in the spec. An instruction of the family writes Vx, or VF and then Vx, and advances; what is left is the value each one
writes. -/

namespace Sys2Proof

/-! ### The words of class 8 as the numbers the statements write them with (30_encoding.md R62, R65) -/

theorem ofNat_eq_word8xyn (x y n : Fin 16) :
    BitVec.ofNat 16 (0x8000 + n.val + 256 * x.val + 16 * y.val) = wordXyn 0x8 x y n := by
  have hsum : 0x8000 + n.val + 256 * x.val + 16 * y.val = 4096 * 8 + 256 * x.val + 16 * y.val + n.val := by omega
  exact (congrArg (BitVec.ofNat 16) hsum).trans (ofNat_eq_wordXyn 0x8 x y n)

/-- `y` is a don't-care field of SHR and SHL (R67), so the encoder does not write all of their words. -/
theorem decodeWord_8xy6 (x y : Reg) : decodeWord (wordXyn 0x8 x y 0x6) = .ok (.shr x) := by
  simp [decodeWord, decodeClass8, fields_wordXyn]

theorem decodeWord_8xyE (x y : Reg) : decodeWord (wordXyn 0x8 x y 0xE) = .ok (.shl x) := by
  simp [decodeWord, decodeClass8, fields_wordXyn]

/-- Settles O5: ten closed words, which the decoder evaluates. -/
theorem specWordsDecodeAsTheSpecSays : Obligations.SpecWordsDecodeAsTheSpecSays :=
  ⟨rfl, rfl, rfl, rfl, rfl, rfl, rfl, rfl, rfl, rfl⟩

end Sys2Proof

namespace Sys2Proof.Machine

/-! ### The two ways an instruction writes its result -/

/-- An instruction that writes one register and advances. -/
theorem writesV_of_exec_eq {i : Instr} {s : State} {x : Reg} {b : Byte} (h : exec i s = .next (s.setV x b).advance) :
    ∃ t, exec i s = .next t ∧ t.getV x = b ∧ PcPlus 2 s t ∧ Frame [x] [] s t :=
  ⟨_, h, by simp, pcPlus_congr rfl (pcPlus_advance _), (keepsFields_setV s x b).advance.frame⟩

/-- An instruction that writes its flag, then its result, and advances. Where the result goes to VF the flag is lost (D11). -/
theorem writesFlagThenV_of_exec_eq {i : Instr} {s : State} {f : Byte} {x : Reg} {b : Byte}
    (h : exec i s = .next (s.setFlagThenV f x b).advance) :
    ∃ t, exec i s = .next t ∧ t.getV x = b ∧ (x ≠ vF → t.getV vF = f) ∧ PcPlus 2 s t ∧ Frame [vF, x] [] s t :=
  ⟨_, h, by simp, fun hx => by simp [hx.symm], pcPlus_congr rfl (pcPlus_advance _),
    (keepsFields_setFlagThenV s f x b).advance.frame⟩

/-! ### The flags and the differences as numbers -/

theorem flagByte_decide (p : Prop) [Decidable p] : flagByte (decide p) = if p then 1 else 0 := by
  simp [flagByte]

@[simp] theorem flagByte_toNat (b : Bool) : (flagByte b).toNat = b.toNat := by
  cases b <;> rfl

theorem shiftedOutRight_toNat (a : Byte) : (shiftedOutRight a).toNat = a.toNat % 2 := by
  rw [shiftedOutRight, flagByte_toNat, BitVec.getLsbD, Nat.toNat_testBit, pow_zero, Nat.div_one]

theorem shiftedOutLeft_toNat (a : Byte) : (shiftedOutLeft a).toNat = a.toNat / 128 := by
  have := a.isLt
  rw [shiftedOutLeft, flagByte_toNat, BitVec.getLsbD, Nat.toNat_testBit]
  omega

theorem sub_toNat (a b : Byte) : (a - b).toNat = (a.toNat + 256 - b.toNat) % 256 := by
  have := b.isLt
  rw [BitVec.toNat_sub]
  omega

theorem shiftRight_one_toNat (a : Byte) : (a >>> 1).toNat = a.toNat / 2 := by
  rw [BitVec.toNat_ushiftRight, Nat.shiftRight_eq_div_pow, pow_one]

theorem shiftLeft_one_toNat (a : Byte) : (a <<< 1).toNat = 2 * a.toNat % 256 := by
  rw [BitVec.toNat_shiftLeft, Nat.shiftLeft_eq, pow_one, Nat.mul_comm]

/-! ### One register, no flag -/

/-- Settles O13: the words are the encodings of the two loads. -/
theorem registerLoadsCopyTheirOperand : Obligations.RegisterLoadsCopyTheirOperand := by
  intro s x y kk
  refine ⟨⟨?_, writesV_of_exec_eq rfl⟩, ⟨?_, writesV_of_exec_eq rfl⟩⟩
  · exact (congrArg decodeWord (ofNat_eq_wordXkk 0x6 x kk)).trans (decodeWord_encodeWord (.ldImm x kk))
  · exact (congrArg decodeWord (ofNat_eq_word8xyn x y 0)).trans (decodeWord_encodeWord (.ldReg x y))

/-- Settles O14: VF is kept by the frame, since Vx is the one register written. -/
theorem immediateAddAndLogicWriteNoFlag : Obligations.ImmediateAddAndLogicWriteNoFlag := by
  intro s x y kk
  refine ⟨?_, ?_, ?_, ?_⟩
  · obtain ⟨t, h, hx, hpc, hframe⟩ := writesV_of_exec_eq (i := .addImm x kk) (s := s) rfl
    exact ⟨t, h, hx ▸ BitVec.toNat_add _ _, hpc, hframe⟩
  · obtain ⟨t, h, hx, hpc, hframe⟩ := writesV_of_exec_eq (i := .orReg x y) (s := s) rfl
    exact ⟨t, h, fun _ => hx ▸ BitVec.getLsbD_or, hpc, hframe⟩
  · obtain ⟨t, h, hx, hpc, hframe⟩ := writesV_of_exec_eq (i := .andReg x y) (s := s) rfl
    exact ⟨t, h, fun _ => hx ▸ BitVec.getLsbD_and, hpc, hframe⟩
  · obtain ⟨t, h, hx, hpc, hframe⟩ := writesV_of_exec_eq (i := .xorReg x y) (s := s) rfl
    exact ⟨t, h, fun _ => hx ▸ BitVec.getLsbD_xor, hpc, hframe⟩

/-! ### One register and its flag -/

/-- Settles O15. -/
theorem addWritesSumAndCarry : Obligations.AddWritesSumAndCarry := by
  intro s x y
  refine ⟨?_, ?_⟩
  · exact (congrArg decodeWord (ofNat_eq_word8xyn x y 4)).trans (decodeWord_encodeWord (.addReg x y))
  · obtain ⟨t, h, hx, hf, hpc, hframe⟩ := writesFlagThenV_of_exec_eq (i := .addReg x y) (s := s) rfl
    exact ⟨t, h, hx ▸ BitVec.toNat_add _ _, fun hne => (hf hne).trans (flagByte_decide _), hpc, hframe⟩

/-- Settles O16: SUBN is SUB with the operands exchanged. -/
theorem subtractionsWriteDifferenceAndNotBorrow : Obligations.SubtractionsWriteDifferenceAndNotBorrow := by
  intro s x y
  refine ⟨?_, ?_⟩
  · obtain ⟨t, h, hx, hf, hpc, hframe⟩ := writesFlagThenV_of_exec_eq (i := .subReg x y) (s := s) rfl
    exact ⟨t, h, hx ▸ sub_toNat _ _, fun hne => (hf hne).trans (flagByte_decide _), hpc, hframe⟩
  · obtain ⟨t, h, hx, hf, hpc, hframe⟩ := writesFlagThenV_of_exec_eq (i := .subnReg x y) (s := s) rfl
    exact ⟨t, h, hx ▸ sub_toNat _ _, fun hne => (hf hne).trans (flagByte_decide _), hpc, hframe⟩

/-- Settles O17: the bit moved out is Vx modulo 2 for SHR and Vx / 128 for SHL. -/
theorem shiftsMoveOneBitIntoVF : Obligations.ShiftsMoveOneBitIntoVF := by
  intro s x y
  refine ⟨⟨?_, ?_⟩, ⟨?_, ?_⟩⟩
  · exact (congrArg decodeWord (ofNat_eq_word8xyn x y 6)).trans (decodeWord_8xy6 x y)
  · obtain ⟨t, h, hx, hf, hpc, hframe⟩ := writesFlagThenV_of_exec_eq (i := .shr x) (s := s) rfl
    exact ⟨t, h, hx ▸ shiftRight_one_toNat _, fun hne => hf hne ▸ shiftedOutRight_toNat _, hpc, hframe⟩
  · exact (congrArg decodeWord (ofNat_eq_word8xyn x y 14)).trans (decodeWord_8xyE x y)
  · obtain ⟨t, h, hx, hf, hpc, hframe⟩ := writesFlagThenV_of_exec_eq (i := .shl x) (s := s) rfl
    exact ⟨t, h, hx ▸ shiftLeft_one_toNat _, fun hne => hf hne ▸ shiftedOutLeft_toNat _, hpc, hframe⟩

/-! ### The random byte -/

/-- Settles O18: taking the random input touches no register and not PC, whether a byte was presented or not. -/
theorem randomByteIsMasked : Obligations.RandomByteIsMasked := by
  intro s x kk
  have hx : ∀ u : State, (u.takeRand.setV x (u.randInput &&& kk)).advance.getV x = u.randInput &&& kk := by simp
  refine ⟨⟨_, rfl, hx s, fun j hj => ?_, ?_, ?_⟩, fun r rs => ⟨_, rfl, hx _, rfl⟩⟩
  · rw [hx, BitVec.getLsbD_and, Bool.and_eq_true] at hj
    exact hj.2
  · exact pcPlus_congr (takeRand_pc s) (pcPlus_advance _)
  · exact ((keepsFields_takeRand s).trans (keepsFields_setV _ _ _)).advance.frame

end Sys2Proof.Machine
end

section
/-! PROOF. The index register and the memory transfers (spec 43_index_memory.md R120 to R125). Three instructions write I and
advance, two store bytes from I on and advance, one loads registers. -/

namespace Sys2Proof

/-- The words of class F as the numbers the statements write them with (30_encoding.md R62, R65). -/
theorem ofNat_eq_wordFxkk (x : Reg) (kk : Byte) :
    BitVec.ofNat 16 (0xF000 + kk.toNat + 256 * x.val) = wordXkk 0xF x kk := by
  have hsum : 0xF000 + kk.toNat + 256 * x.val = 4096 * 15 + 256 * x.val + kk.toNat := by omega
  exact (congrArg (BitVec.ofNat 16) hsum).trans (ofNat_eq_wordXkk 0xF x kk)

end Sys2Proof

namespace Sys2Proof.Machine

/-! ### The two ways an instruction of the family writes -/

/-- An instruction that writes I and advances. -/
theorem writesI_of_exec_eq {i : Instr} {s : State} {w : Word} (h : exec i s = .next (s.setI w).advance) :
    ∃ t, exec i s = .next t ∧ t.i = w ∧ PcPlus 2 s t ∧ Frame [] [.i] s t :=
  ⟨_, h, rfl, pcPlus_congr rfl (pcPlus_advance _), (keepsFields_setI s w).advance.frame⟩

theorem sameMemOutside_memWriteList (s : State) (a : Nat) (bs : List Byte) :
    SameMemOutside a bs.length s (s.memWriteList a bs) := fun c hc =>
  memRead_memWriteList_outside s a c bs hc

/-- An instruction that stores bytes from I on and advances: memory reads as the store leaves it. -/
theorem storesFromI_of_exec_eq {i : Instr} {s : State} {bs : List Byte}
    (h : exec i s = .next (s.memWriteList (s.ea 0) bs).advance) :
    ∃ t, exec i s = .next t ∧ (∀ a, t.memRead a = (s.memWriteList (s.ea 0) bs).memRead a) ∧
      SameMemOutside (s.ea 0) bs.length s t ∧ PcPlus 2 s t ∧ Frame [] [.mem] s t :=
  ⟨_, h, fun _ => rfl, sameMemOutside_memWriteList s _ bs, pcPlus_congr (memWriteList_pc s _ bs) (pcPlus_advance _),
    (keepsFields_memWriteList s _ bs).advance.frame⟩

/-! ### The index register -/

/-- Settles O28: the word is the encoding of the load. -/
theorem loadIndexSetsI : Obligations.LoadIndexSetsI := by
  intro s nnn
  refine ⟨(congrArg decodeWord (ofNat_eq_wordNnn 0xA nnn)).trans (decodeWord_encodeWord (.ldI nnn)), ?_⟩
  obtain ⟨t, h, hi, hpc, hframe⟩ := writesI_of_exec_eq (i := .ldI nnn) (s := s) rfl
  exact ⟨t, h, hi ▸ zextAddr_toNat nnn, hpc, hframe⟩

/-- Settles O29: VF is kept by the frame, since no register is written. -/
theorem indexSumAndFontAddress : Obligations.IndexSumAndFontAddress := by
  intro s x
  refine ⟨?_, ?_⟩
  · obtain ⟨t, h, hi, hpc, hframe⟩ := writesI_of_exec_eq (i := .addI x) (s := s) rfl
    exact ⟨t, h, by rw [hi, BitVec.toNat_add, zextByte_toNat], hpc, hframe⟩
  · obtain ⟨t, h, hi, hpc, hframe⟩ := writesI_of_exec_eq (i := .ldFont x) (s := s) rfl
    exact ⟨t, h, by rw [hi, glyphAddr_toNat, lowNibble_val], hpc, hframe⟩

/-! ### The decimal digits -/

/-- Each of the three stored digits reads back, also where the addresses wrap past 0xFFF. -/
theorem memRead_storedDigits (s : State) (b : Byte) {j : Nat} (hj : j < 3) :
    ((s.memWriteList (s.ea 0) (decimalDigits b)).memRead (s.ea j)).toNat =
      [b.toNat / 100, b.toNat / 10 % 10, b.toNat % 10][j] := by
  have hread : (s.memWriteList (s.ea 0) (decimalDigits b)).memRead (s.ea j) = (decimalDigits b)[j]'hj :=
    memRead_memWriteList s s.i.toNat j (decimalDigits b) (by simp [decimalDigits]) hj
  calc ((s.memWriteList (s.ea 0) (decimalDigits b)).memRead (s.ea j)).toNat
      = ((decimalDigits b)[j]'hj).toNat := congrArg BitVec.toNat hread
    _ = ((decimalDigits b).map BitVec.toNat)[j]'hj := (List.getElem_map BitVec.toNat).symm
    _ = [b.toNat / 100, b.toNat / 10 % 10, b.toNat % 10][j] := by simp only [decimalDigits_toNat]

/-- Settles O30: the word is the encoding, and the store is of the three digits. -/
theorem decimalDigitsAreStored : Obligations.DecimalDigitsAreStored := by
  intro s x
  refine ⟨(congrArg decodeWord (ofNat_eq_wordFxkk x 0x33)).trans (decodeWord_encodeWord (.ldBcd x)), ?_⟩
  obtain ⟨t, h, hread, hout, hpc, hframe⟩ := storesFromI_of_exec_eq (i := .ldBcd x) (s := s) rfl
  have hdigit : ∀ j (hj : j < 3), (t.memRead (s.ea j)).toNat =
      [(s.getV x).toNat / 100, (s.getV x).toNat / 10 % 10, (s.getV x).toNat % 10][j] := fun j hj =>
    hread (s.ea j) ▸ memRead_storedDigits s (s.getV x) hj
  exact ⟨t, h, hdigit 0 (by decide), hdigit 1 (by decide), hdigit 2 (by decide), hout, hpc, hframe⟩

/-! ### Registers stored and loaded -/

/-- Settles O31: the store is of V0 to Vx, which are `x + 1` bytes. -/
theorem registersAreStoredFromI : Obligations.RegistersAreStoredFromI := by
  intro s x
  obtain ⟨t, h, hread, hout, hpc, hframe⟩ := storesFromI_of_exec_eq (i := .storeRegs x) (s := s) rfl
  rw [length_regsUpTo] at hout
  exact ⟨t, h, fun r hr => (hread _).trans (memRead_storedRegs s x r hr), hout, hpc, hframe⟩

/-- Settles O32: the registers up to x are those that are loaded. -/
theorem registersAreLoadedFromI : Obligations.RegistersAreLoadedFromI := fun s x =>
  ⟨_, rfl, fun r hr => (getV_loadedRegs s x r).trans (if_pos hr),
    fun r hr => (getV_loadedRegs s x r).trans (if_neg hr.not_ge),
    pcPlus_congr rfl (pcPlus_advance _), (keepsFields_loadedRegs s x).advance.frame⟩

/-- Settles O33: the load reads each byte where the store put it, since I and memory are the same. -/
theorem storedRegistersLoadBack : Obligations.StoredRegistersLoadBack := by
  intro s t u x hstore hi hmem
  obtain ⟨t', hstore', hstored, -⟩ := registersAreStoredFromI s x
  cases hstore'.symm.trans hstore
  obtain ⟨w, hload, hloaded, -⟩ := registersAreLoadedFromI u x
  have hea : ∀ k, u.ea k = s.ea k := fun k => by rw [State.ea, State.ea, hi]
  refine ⟨w, hload, fun r hr => ?_⟩
  calc w.getV r = u.memRead (u.ea r.val) := hloaded r hr
    _ = t.memRead (s.ea r.val) := by rw [hea, hmem]
    _ = s.getV r := hstored r hr

end Sys2Proof.Machine
end

section
/-! PROOF. The display (spec 44_display.md R130 to R132). `CLS` and `DRW` replace the framebuffer and advance, and `DRW` writes
VF too; which pixels a sprite flips is `drawSprite_spec`. -/

namespace Sys2Proof.Machine

/-- Settles O35: the blank display has no pixel on, and the framebuffer is all that is written. -/
theorem clearTurnsAllPixelsOff : Obligations.ClearTurnsAllPixelsOff :=
  ⟨decodeWord_encodeWord .cls, fun s =>
    ⟨_, rfl, pixel_blank, pcPlus_congr rfl (pcPlus_advance _), (keepsFields_setFb s _).advance.frame⟩⟩

/-! ### One draw -/

/-- A pixel after the draw: flipped under a set sprite bit, else as before. -/
theorem pixel_drawSprite (s : State) (px py n : Nat) (hn : n ≤ 15) (cx : Fin 64) (cy : Fin 32) :
    Display.pixel (s.drawSprite px py n).1 cx cy = (s.pixel cx cy ^^ s.spriteBit px py n cx cy) := by
  obtain ⟨hflip, hkeep, -⟩ := drawSprite_spec s px py n hn
  cases hb : s.spriteBit px py n cx cy with
  | true => rw [hflip cx cy hb, Bool.xor_true, State.pixel]
  | false => rw [hkeep cx cy (by simp [hb]), Bool.xor_false, State.pixel]

/-- The collision bit (decision D9). -/
theorem drawSprite_collides_iff (s : State) (px py n : Nat) (hn : n ≤ 15) :
    (s.drawSprite px py n).2 = true ↔ ∃ cx cy, s.pixel cx cy = true ∧ s.spriteBit px py n cx cy = true := by
  obtain ⟨-, -, hhit⟩ := drawSprite_spec s px py n hn
  simpa only [and_comm, State.pixel] using hhit

/-- Settles O36, from what `drawSprite` does to the pixels and to the collision bit. -/
theorem drawXorsTheSprite : Obligations.DrawXorsTheSprite := by
  intro s x y n
  have hn : n.val ≤ 15 := Nat.le_of_lt_succ n.isLt
  have hpixel := pixel_drawSprite s (s.getV x).toNat (s.getV y).toNat n.val hn
  have hhit := drawSprite_collides_iff s (s.getV x).toNat (s.getV y).toNat n.val hn
  refine ⟨_, rfl, hpixel, fun h => ?_, fun h => ?_, pcPlus_congr rfl (pcPlus_advance _),
    ((keepsFields_setFb s _).trans (keepsFields_setV _ _ _)).advance.frame⟩
  · simp [hhit.mpr h, flagByte]
  · simp [Bool.eq_false_iff.mpr (mt hhit.mp h), flagByte]

/-! ### Two draws -/

/-- The sprite is read from memory at I, and depends on nothing else of the state. -/
theorem spriteBit_congr {s t : State} (hi : t.i = s.i) (hmem : ∀ a : Nat, t.memRead a = s.memRead a) (px py n : Nat)
    (cx : Fin 64) (cy : Fin 32) : t.spriteBit px py n cx cy = s.spriteBit px py n cx cy := by
  simp only [State.spriteBit, State.ea, hi, hmem]

/-- A draw leaves its own sprite in place, where neither coordinate register is VF: the registers named, I and memory are
kept. -/
theorem spriteBit_of_drawn {s t : State} {x y : Reg} (hx : x ≠ vF) (hy : y ≠ vF) (h : Frame [vF] [.fb] s t) (n : Nat)
    (cx : Fin 64) (cy : Fin 32) :
    t.spriteBit (t.getV x).toNat (t.getV y).toNat n cx cy = s.spriteBit (s.getV x).toNat (s.getV y).toNat n cx cy := by
  obtain ⟨hv, hp⟩ := h
  rw [hv x (by simpa using hx), hv y (by simpa using hy)]
  exact spriteBit_congr (hp .i (by decide)) (hp .mem (by decide)) _ _ n cx cy

/-- A flipped pixel is on under a set bit exactly if it was off and is on. -/
theorem xor_and_eq_true_iff (p b : Bool) : ((p ^^ b) = true ∧ b = true) ↔ (p = false ∧ (p ^^ b) = true) := by
  cases p <;> simp

/-- Settles O37: both draws flip the pixels under the same sprite, and the second collides where the first turned one on. -/
theorem drawingTwiceRestoresTheDisplay : Obligations.DrawingTwiceRestoresTheDisplay := by
  intro s t u x y n hx hy hst htu
  obtain ⟨t', hst', ht, -, -, -, hframe⟩ := drawXorsTheSprite s x y n
  cases hst'.symm.trans hst
  obtain ⟨u', htu', hu, hhit, hmiss, -, -⟩ := drawXorsTheSprite t x y n
  cases htu'.symm.trans htu
  simp only [spriteBit_of_drawn hx hy hframe, ht, xor_and_eq_true_iff] at hu hhit hmiss ⊢
  refine ⟨fun cx cy => ?_, fun h1 => ?_, hhit⟩
  · rw [hu, Bool.xor_assoc, Bool.xor_self, Bool.xor_false]
  · by_contra hno
    exact absurd ((hmiss hno).symm.trans h1) (by decide)

end Sys2Proof.Machine
end

section
/-! PROOF. The timers and the key-wait (spec 45_timers_keys.md R140 to R143). The key-wait is settled by which key is the lowest
held; a key-wait with no key held is a fixed point of the step once WAITING is set. -/

namespace Sys2Proof.Machine

/-! ### The key-wait -/

/-- `LD Vx, K` with no key held (R141). -/
theorem exec_ldKey_of_no_key {s : State} (x : Reg) (h : ∀ k, s.key k = false) :
    exec (.ldKey x) s = .next (s.setWaiting true) := by
  change execLdKey x s = _
  rw [execLdKey, lowestHeldKey_eq_none.mpr h]

/-- `LD Vx, K` with `k` the lowest key held (R141, decision D12). -/
theorem exec_ldKey_of_lowest {s : State} {k : Fin 16} (x : Reg) (hk : s.key k = true)
    (hlow : ∀ j, j < k → s.key j = false) :
    exec (.ldKey x) s = .next ((s.setV x (keyByte k)).setWaiting false).advance := by
  change execLdKey x s = _
  rw [execLdKey, lowestHeldKey_eq_some.mpr ⟨hk, hlow⟩]

/-- Settles O39. -/
theorem keyWaitTakesTheLowestHeldKey : Obligations.KeyWaitTakesTheLowestHeldKey := by
  intro s x
  refine ⟨fun k hk hlow => ?_, fun hno => ?_⟩
  · exact ⟨_, exec_ldKey_of_lowest x hk hlow, by simp, rfl, pcPlus_congr rfl (pcPlus_advance _),
      ((keepsFields_setV s x _).trans (keepsFields_setWaiting _ false)).advance.frame⟩
  · exact ⟨_, exec_ldKey_of_no_key x hno, rfl, rfl, (keepsFields_setWaiting s true).frame⟩

/-- One step of a key-wait with no key held. -/
theorem step_of_keyWait {s : State} {x : Reg} (hf : s.fault = .none) (hi : s.instrAtPc = some (.ldKey x))
    (hno : ∀ k, s.key k = false) : step s = .next (s.setWaiting true) :=
  (step_of_decode hf (instrAtPc_eq_some.mp hi)).trans (exec_ldKey_of_no_key x hno)

/-- Settles O40, by induction on the steps after the first: setting WAITING leaves FAULT, the instruction at PC and the keys as
they are, so the next step is at a key-wait again. -/
theorem keyWaitHoldsForAnyNumberOfSteps : Obligations.KeyWaitHoldsForAnyNumberOfSteps := by
  intro s x k hf hi hno
  induction k generalizing s with
  | zero => exact run_succ (M := Sys2Proof.core) 0 (step_of_keyWait hf hi hno)
  | succ k ih =>
    have hi' : (s.setWaiting true).instrAtPc = some (.ldKey x) := (instrAtPc_congr rfl rfl).trans hi
    calc Sys2Proof.core.run (k + 2) s
        = Sys2Proof.core.run (k + 1) (s.setWaiting true) := run_succ (k + 1) (step_of_keyWait hf hi hno)
      _ = .next ((s.setWaiting true).setWaiting true) := ih _ hf hi' hno
      _ = .next (s.setWaiting true) := rfl

/-! ### The timers -/

/-- Settles O38: the words are the encodings of the three copies. -/
theorem timerInstructionsCopy : Obligations.TimerInstructionsCopy := by
  intro s x
  refine ⟨⟨?_, writesV_of_exec_eq rfl⟩, ⟨?_, _, rfl, rfl, ?_, (keepsFields_setDt s _).advance.frame⟩,
    ⟨?_, _, rfl, rfl, ?_, (keepsFields_setSt s _).advance.frame⟩⟩
  · exact (congrArg decodeWord (ofNat_eq_wordFxkk x 0x07)).trans (decodeWord_encodeWord (.ldFromDt x))
  · exact (congrArg decodeWord (ofNat_eq_wordFxkk x 0x15)).trans (decodeWord_encodeWord (.ldDt x))
  · exact pcPlus_congr rfl (pcPlus_advance _)
  · exact (congrArg decodeWord (ofNat_eq_wordFxkk x 0x18)).trans (decodeWord_encodeWord (.ldSt x))
  · exact pcPlus_congr rfl (pcPlus_advance _)

end Sys2Proof.Machine
end

section
/-! PROOF. Faults and the host's commands (spec 60_exceptions.md). A step, and so every command, answers a next state; a faulted
machine keeps FAULT through every command but `reset`; the timers and the keys change by their own commands. -/

namespace Sys2Proof.Machine

/-! ### Taking a fault -/

/-- An instruction that takes a fault changes FAULT alone (R153, decision D4). -/
theorem raises_of_exec_eq {i : Instr} {s : State} {c : FaultCode} (h : exec i s = .next (s.raise c)) :
    ∃ t, exec i s = .next t ∧ t.fault = c ∧ t.pc = s.pc ∧ Frame [] [.fault] s t :=
  ⟨_, h, rfl, rfl, (keepsFields_raise s c).frame⟩

theorem exec_call_full {s : State} (nnn : Addr12) (h : s.sp.val = 15) :
    exec (.call nnn) s = .next (s.raise .stackOverflow) := if_pos h

theorem exec_ret_empty {s : State} (h : s.sp.val = 0) : exec .ret s = .next (s.raise .stackUnderflow) := if_pos h

/-- Settles O26. -/
theorem stackFaultsChangeOnlyFault : Obligations.StackFaultsChangeOnlyFault := fun _ nnn =>
  ⟨fun h => raises_of_exec_eq (exec_call_full nnn h), fun h => raises_of_exec_eq (exec_ret_empty h)⟩

/-! ### Every step and every command answers -/

/-- In each of its three ways a step answers a next state, since every instruction does. -/
theorem step_eq_next (s : State) : ∃ t, step s = .next t := by
  rcases step_cases s with ⟨-, h⟩ | ⟨-, -, h⟩ | ⟨-, i, -, h⟩
  · exact ⟨s, h⟩
  · exact ⟨s.advance, h⟩
  · obtain ⟨t, ht, -⟩ := exec_keepsFields i s
    exact ⟨t, h.trans ht⟩

theorem stepCommand_of_step {s t : State} {rand : Byte} (h : step (s.setRandIn [rand]) = .next t) :
    stepCommand rand s = .next (stepResult t, t.setRandIn s.randIn) := by
  rw [stepCommand, h, mapNext]

/-- What a `step` command answers: the result of the step it makes, with its `rand` taken away again (R160, log 1). -/
theorem stepCommand_eq_next (rand : Byte) (s : State) :
    ∃ t, step (s.setRandIn [rand]) = .next t ∧ stepCommand rand s = .next (stepResult t, t.setRandIn s.randIn) := by
  obtain ⟨t, h⟩ := step_eq_next (s.setRandIn [rand])
  exact ⟨t, h, stepCommand_of_step h⟩

/-- Five of the six commands are functions of the state; only `step` could have no next state. -/
theorem perform_eq_next (c : Command) (s : State) : ∃ r t, perform c s = .next (r, t) := by
  cases c with
  | step rand =>
    obtain ⟨t, -, h⟩ := stepCommand_eq_next rand s
    exact ⟨_, _, h⟩
  | reset | loadProgram | tickTimers | setKey | clearKey => exact ⟨_, _, rfl⟩

/-- Settles O9. -/
theorem everyCommandIsAccepted : Obligations.EveryCommandIsAccepted := fun s c => ⟨step_eq_next s, perform_eq_next c s⟩

/-! ### The result of a step -/

theorem stepResult_eq_stepOk {t : State} : stepResult t = .stepOk ↔ t.fault = .none := by
  unfold stepResult
  cases t.fault <;> simp

theorem stepResult_eq_stepFault {t : State} {c : FaultCode} :
    stepResult t = .stepFault c ↔ c ≠ .none ∧ t.fault = c := by
  unfold stepResult
  cases t.fault <;> cases c <;> simp

/-- Settles O52: taking the `rand` away leaves FAULT as the step left it. -/
theorem stepResultTellsTheFault : Obligations.StepResultTellsTheFault := by
  intro s t rand r h
  obtain ⟨u, -, hu⟩ := stepCommand_eq_next rand s
  cases hu.symm.trans h
  exact ⟨stepResult_eq_stepOk, fun _ => stepResult_eq_stepFault, rfl⟩

/-! ### Only `reset` clears a fault -/

theorem fault_loadProgram (rom : List Byte) (s : State) : (loadProgram rom s).2.fault = s.fault := by
  unfold loadProgram
  split
  · rfl
  · exact memWriteList_fault s _ rom

/-- A `step` command to a faulted machine changes nothing and reports the fault again (R154, decision D23). -/
theorem stepCommand_faulted {s : State} (rand : Byte) (h : s.fault ≠ .none) :
    stepCommand rand s = .next (stepResult s, s) := stepCommand_of_step (t := s.setRandIn [rand]) (step_faulted h)

/-- Settles O51, command by command. Of the five that keep FAULT only `step` needs the machine to be faulted. -/
theorem onlyResetClearsAFault : Obligations.OnlyResetClearsAFault := by
  intro s t c r hf h
  cases c with
  | reset =>
    cases h
    exact ⟨fun _ => rfl, fun hne => absurd rfl hne⟩
  | loadProgram rom =>
    have ht : (loadProgram rom s).2 = t := congrArg Prod.snd (Host.Outcome.next.inj h)
    exact ⟨nofun, fun _ => ht ▸ fault_loadProgram rom s⟩
  | step rand =>
    cases (stepCommand_faulted rand hf).symm.trans h
    exact ⟨nofun, fun _ => rfl⟩
  | tickTimers | setKey | clearKey =>
    cases h
    exact ⟨nofun, fun _ => rfl⟩

/-! ### The timers -/

theorem countDown_toNat (b : Byte) : (countDown b).toNat = b.toNat - 1 := by
  unfold countDown
  split
  · bv_omega
  · omega

theorem iterate_countDown_toNat (n : Nat) (b : Byte) : (countDown^[n] b).toNat = b.toNat - n := by
  induction n with
  | zero => rfl
  | succ n ih => rw [Function.iterate_succ_apply', countDown_toNat, ih, Nat.sub_sub]

/-- Each timer counts down by itself, whatever the other holds. -/
theorem iterate_tickTimers_dt (n : Nat) (s : State) : (tickTimers^[n] s).dt = countDown^[n] s.dt :=
  Function.Semiconj.iterate_right (f := State.dt) (fun _ => rfl) n s

theorem iterate_tickTimers_st (n : Nat) (s : State) : (tickTimers^[n] s).st = countDown^[n] s.st :=
  Function.Semiconj.iterate_right (f := State.st) (fun _ => rfl) n s

theorem iterate_tickTimers_pc (n : Nat) (s : State) : (tickTimers^[n] s).pc = s.pc := by
  induction n with
  | zero => rfl
  | succ n ih => exact (congrArg State.pc (Function.iterate_succ_apply' tickTimers n s)).trans ih

theorem keepsFields_tickTimers (s : State) : KeepsFields [] [.dt, .st] s (tickTimers s) :=
  (keepsFields_setDt s _).trans (keepsFields_setSt _ _)

theorem keepsFields_iterate_tickTimers (n : Nat) (s : State) : KeepsFields [] [.dt, .st] s (tickTimers^[n] s) := by
  induction n with
  | zero => exact (keepsFields_refl s).mono (by simp) (by simp)
  | succ n ih =>
    rw [Function.iterate_succ_apply']
    exact (ih.trans (keepsFields_tickTimers _)).mono (by simp) (by simp)

/-- Settles O48: each timer after n ticks is n countdowns of that timer. -/
theorem ticksCountDownToZero : Obligations.TicksCountDownToZero := fun n s =>
  ⟨iterate_tickTimers_dt n s ▸ iterate_countDown_toNat n s.dt, iterate_tickTimers_st n s ▸ iterate_countDown_toNat n s.st,
    iterate_tickTimers_pc n s, (keepsFields_iterate_tickTimers n s).frame⟩

/-! ### The keys -/

theorem keepsFields_setKeyBit (s : State) (k : Fin 16) (b : Bool) : KeepsFields [] [.keys] s (s.setKeyBit k b) := by
  constructor <;> simp

/-- A command that answers the state with one key written. -/
theorem writesKey_of_perform_eq {c : Command} {s : State} {k : Fin 16} {b : Bool}
    (h : perform c s = .next (.done, s.setKeyBit k b)) :
    ∃ t, perform c s = .next (.done, t) ∧ t.key k = b ∧ (∀ j, j ≠ k → t.key j = s.key j) ∧ t.pc = s.pc ∧
      Frame [] [.keys] s t :=
  ⟨_, h, by simp, fun j hj => by simp [hj], rfl, (keepsFields_setKeyBit s k b).frame⟩

/-- Settles O49. -/
theorem keyCommandsChangeOneKey : Obligations.KeyCommandsChangeOneKey := fun _ _ =>
  ⟨writesKey_of_perform_eq rfl, writesKey_of_perform_eq rfl⟩

end Sys2Proof.Machine
end

section
/-! PROOF. Reset, loading and the first step (spec 70_reset_and_hazards.md R180 to R182). `reset` leaves the font and zeros;
`load_program` is one store of the whole image at 0x200, as a command and as clock edges; and every command keeps the
invariant. -/

namespace Sys2Proof.Machine

/-! ### The memory after `reset` -/

theorem memRead_resetCommand (s : State) (a : Nat) : (resetCommand s).memRead a = resetByte (a % 4096) := rfl

/-- The font ends at address 79 (20_memory.md R42). -/
theorem resetByte_eq_zero {a : Nat} (h : 80 ≤ a) : resetByte a = 0 := by
  have hlen : fontTable.length ≤ a - fontBase := h
  rw [resetByte, List.getD_eq_default _ _ hlen, ite_self]

/-- The font fills the first 80 addresses (20_memory.md R42, the spec's decision D8). -/
theorem map_resetByte_range : (List.range 80).map resetByte = fontTable := by decide

theorem map_memRead_resetCommand (s : State) : (List.range 80).map (resetCommand s).memRead = fontTable := by
  rw [← map_resetByte_range]
  refine List.map_congr_left fun a ha => ?_
  have hlt : a < 4096 := (List.mem_range.mp ha).trans (by decide)
  rw [memRead_resetCommand, Nat.mod_eq_of_lt hlt]

/-- Settles O45: memory by the lemmas above, the vectors by what a constant vector holds, the rest as `State.reset` lists it. -/
theorem resetGivesEveryListedValue : Obligations.ResetGivesEveryListedValue := by
  intro s
  have hzero : ∀ a, 80 ≤ a → a < 4096 → (resetCommand s).memRead a = 0 := fun a hlo hhi => by
    rw [memRead_resetCommand, Nat.mod_eq_of_lt hhi, resetByte_eq_zero hlo]
  exact ⟨resetCommand s, rfl, hzero, map_memRead_resetCommand s, rfl, rfl, rfl, rfl,
    fun k => Vector.getElem_replicate k.isLt, rfl, fun r => Vector.getElem_replicate r.isLt, rfl,
    fun j => Vector.getElem_replicate j.isLt, pixel_blank, rfl⟩

/-! ### Loading an image -/

/-- The state after loading an image that fits: one store from 0x200 on (R181). -/
def State.withImage (s : State) (rom : List Byte) : State := s.memWriteList 0x200 rom

theorem loadProgram_of_fits {rom : List Byte} (s : State) (h : rom.length ≤ 3584) :
    loadProgram rom s = (.loadOk, s.withImage rom) := if_neg h.not_gt

/-- An image that does not fit is rejected whole (R181, the spec's decision D22). -/
theorem loadProgram_of_too_long {rom : List Byte} (s : State) (h : 3584 < rom.length) :
    loadProgram rom s = (.romTooLarge, s) := if_pos h

theorem memRead_withImage (s : State) {rom : List Byte} (h : rom.length ≤ 3584) {j : Nat} (hj : j < rom.length) :
    (s.withImage rom).memRead (0x200 + j) = rom[j] :=
  memRead_memWriteList s 0x200 j rom (h.trans (by decide)) hj

@[simp] theorem withImage_pc (s : State) (rom : List Byte) : (s.withImage rom).pc = s.pc := memWriteList_pc s _ rom
@[simp] theorem withImage_fault (s : State) (rom : List Byte) : (s.withImage rom).fault = s.fault :=
  memWriteList_fault s _ rom
@[simp] theorem withImage_waiting (s : State) (rom : List Byte) : (s.withImage rom).waiting = s.waiting :=
  memWriteList_waiting s _ rom

/-- Settles O46: the two lengths are the two branches of the command, and what one store does is known. -/
theorem loadProgramPlacesTheImage : Obligations.LoadProgramPlacesTheImage := fun s rom =>
  ⟨fun h => ⟨s.withImage rom, congrArg Host.Outcome.next (loadProgram_of_fits s h), fun _ hj => memRead_withImage s h hj,
      sameMemOutside_memWriteList s 0x200 rom, withImage_pc s rom, (keepsFields_memWriteList s 0x200 rom).frame⟩,
    fun h => congrArg Host.Outcome.next (loadProgram_of_too_long s h)⟩

/-! ### Loading by clock edges -/

/-- A load-byte edge within the largest image is one store (10_state.md R25, log 8). -/
theorem clockEdge_loadByte {k : Nat} (hk : k < 3584) (b : Byte) (s : State) :
    clockEdge { cmd := 2, arg := BitVec.ofNat 12 k, data := b } s = .next (.done, s.memWrite (0x200 + k) b) := by
  have harg : (BitVec.ofNat 12 k).toNat = k := Nat.mod_eq_of_lt (hk.trans (by decide))
  have hload : loadByte (BitVec.ofNat 12 k) b s = .next (s.memWrite (0x200 + k) b) := by
    rw [loadByte, harg]
    exact if_pos hk
  exact congrArg (mapNext fun t => (Response.done, t)) hload

/-- The edges of a part of an image store it where it belongs. -/
theorem clockEdges_loadEdges (bs : List Byte) (k : Nat) (h : k + bs.length ≤ 3584) (s : State) :
    clockEdges (loadEdges bs k) s = .next (s.memWriteList (0x200 + k) bs) := by
  induction bs generalizing k s with
  | nil => rfl
  | cons b bs ih =>
    rw [List.length_cons] at h
    rw [loadEdges, clockEdges, clockEdge_loadByte (by omega)]
    exact ih (k + 1) (by omega) (s.memWrite (0x200 + k) b)

/-- Settles O53: both check the length first, and the edges from offset 0 on make the one store of the command. -/
theorem loadEdgesAreLoadProgram : Obligations.LoadEdgesAreLoadProgram := by
  intro rom s
  rcases Nat.lt_or_ge 3584 rom.length with hlong | hfits
  · calc loadByEdges rom s = .next (.romTooLarge, s) := if_pos hlong
      _ = perform (.loadProgram rom) s := congrArg Host.Outcome.next (loadProgram_of_too_long s hlong).symm
  · have hedges : clockEdges (loadEdges rom 0) s = .next (s.withImage rom) :=
      clockEdges_loadEdges rom 0 (by rwa [Nat.zero_add]) s
    calc loadByEdges rom s = mapNext (fun t => (.loadOk, t)) (clockEdges (loadEdges rom 0) s) := if_neg hfits.not_gt
      _ = .next (.loadOk, s.withImage rom) := by rw [hedges, mapNext]
      _ = perform (.loadProgram rom) s := congrArg Host.Outcome.next (loadProgram_of_fits s hfits).symm

/-! ### The boot order -/

/-- With PC at 0x200 the word at PC is the first of the image (R182, 20_memory.md R44). -/
theorem wordAtPc_withImage {s : State} (hpc : s.pc = 0x200) {hi lo : Byte} {rest : List Byte}
    (h : (hi :: lo :: rest).length ≤ 3584) : (s.withImage (hi :: lo :: rest)).wordAtPc = hi ++ lo := by
  have hhi := memRead_withImage s h (j := 0) (by simp)
  have hlo := memRead_withImage s h (j := 1) (by simp)
  rw [State.wordAtPc, withImage_pc, hpc]
  exact congrArg₂ wordOfBytes hhi hlo

theorem performAll_reset_loadProgram (s : State) {rom : List Byte} (h : rom.length ≤ 3584) :
    performAll [.reset, .loadProgram rom] s = .next ([.done, .loadOk], (resetCommand s).withImage rom) := by
  simp only [performAll, perform, loadProgram_of_fits _ h, mapNext]

/-- Settles O47: after the reset PC is 0x200 and nothing is faulted, and the load keeps both. -/
theorem bootRunsTheFirstInstruction : Obligations.BootRunsTheFirstInstruction := by
  intro s hi lo rest i hlen hdec
  have hfits : (hi :: lo :: rest).length ≤ 3584 := hlen
  have hword := wordAtPc_withImage (s := resetCommand s) rfl hfits
  exact ⟨_, performAll_reset_loadProgram s hfits, withImage_pc _ _,
    step_of_decode (withImage_fault _ _) (hword ▸ hdec)⟩

/-! ### Every command keeps the invariant -/

/-- The invariant speaks of memory, PC, SP, WAITING and FAULT alone. -/
theorem State.Inv.congr {s t : State} (h : s.Inv) (hmem : t.mem = s.mem) (hpc : t.pc = s.pc) (hsp : t.sp = s.sp)
    (hw : t.waiting = s.waiting) (hf : t.fault = s.fault) : t.Inv where
  mem_wf := hmem ▸ h.mem_wf
  waiting_at_key_wait := by
    rw [hw, instrAtPc_congr hmem hpc]
    exact h.waiting_at_key_wait
  overflow_at_call := by
    rw [hf, hsp, instrAtPc_congr hmem hpc]
    exact h.overflow_at_call
  underflow_at_ret := by
    rw [hf, hsp, instrAtPc_congr hmem hpc]
    exact h.underflow_at_ret

theorem inv_resetCommand (s : State) : (resetCommand s).Inv := inv_of_running wf_reset rfl rfl

/-- Loading keeps the invariant where nothing waits or is faulted: the image may replace the instruction at PC. -/
theorem inv_loadProgram {s : State} (h : s.Inv) (hw : s.waiting = false) (hf : s.fault = .none) (rom : List Byte) :
    (loadProgram rom s).2.Inv := by
  rcases Nat.lt_or_ge 3584 rom.length with hlong | hfits
  · rwa [loadProgram_of_too_long s hlong]
  · rw [loadProgram_of_fits s hfits]
    exact inv_of_running (wf_memWriteList 0x200 rom h.mem_wf) ((withImage_waiting s rom).trans hw)
      ((withImage_fault s rom).trans hf)

/-- The `rand` that comes and goes with a `step` command is no part of the invariant. -/
theorem State.Inv.setRandIn {s : State} (h : s.Inv) (rs : List Byte) : (s.setRandIn rs).Inv := h.congr rfl rfl rfl rfl rfl

theorem inv_of_stepCommand {s t : State} {rand : Byte} {r : Response} (h : s.Inv)
    (hc : stepCommand rand s = .next (r, t)) : t.Inv := by
  obtain ⟨u, hstep, hu⟩ := stepCommand_eq_next rand s
  cases hu.symm.trans hc
  exact (stepKeepsTheInvariant _ u (h.setRandIn _) hstep).setRandIn _

/-- Settles O12, command by command; the timers and the keys are no part of the invariant. -/
theorem commandsKeepTheInvariant : Obligations.CommandsKeepTheInvariant := by
  intro s t c r h hload hc
  cases c with
  | reset =>
    cases hc
    exact inv_resetCommand s
  | loadProgram rom =>
    obtain ⟨hw, hf⟩ := hload rom rfl
    have ht : (loadProgram rom s).2 = t := congrArg Prod.snd (Host.Outcome.next.inj hc)
    exact ht ▸ inv_loadProgram h hw hf rom
  | step rand => exact inv_of_stepCommand h hc
  | tickTimers | setKey | clearKey =>
    cases hc
    exact h.congr rfl rfl rfl rfl rfl

end Sys2Proof.Machine
end

section
/-! PROOF. Where PC stands after an instruction (spec 40_flow.md R81), ending by ending, and what a step of a faulted machine
reports (60_exceptions.md R154). -/

namespace Sys2Proof.Machine

/-! ### The seven endings -/

/-- The ending `advance`, after writes that leave PC alone. -/
theorem advance_pc_toNat {s u : State} (h : u.pc = s.pc) : u.advance.pc.toNat = (s.pc.toNat + 2) % 65536 :=
  pcPlus_congr h (pcPlus_advance u)

/-- The ending of a skip as one number. -/
theorem SkipsIff.pc_toNat {p : Prop} [Decidable p] {s t : State} (h : SkipsIff p s t) :
    t.pc.toNat = if p then (s.pc.toNat + 4) % 65536 else (s.pc.toNat + 2) % 65536 := by
  obtain ⟨hskip, hadvance⟩ := h
  split
  · exact hskip ‹p›
  · exact hadvance ‹¬p›

theorem pc_toNat_of_exec_eq_skipIf {i : Instr} {s : State} {c : Bool} {p : Prop} [Decidable p]
    (h : exec i s = .next (s.skipIf c)) (hc : c = true ↔ p) :
    ∃ t, exec i s = .next t ∧
      t.pc.toNat = if p then (s.pc.toNat + 4) % 65536 else (s.pc.toNat + 2) % 65536 := by
  obtain ⟨t, ht, hskips, -⟩ := skips_of_exec_eq_skipIf h hc
  exact ⟨t, ht, hskips.pc_toNat⟩

/-- A skip on the negated condition: the table gives its two outcomes the other way round. -/
theorem pc_toNat_of_exec_eq_skipIf_not {i : Instr} {s : State} {c : Bool} {p : Prop} [Decidable p]
    (h : exec i s = .next (s.skipIf c)) (hc : c = true ↔ ¬p) :
    ∃ t, exec i s = .next t ∧
      t.pc.toNat = if p then (s.pc.toNat + 2) % 65536 else (s.pc.toNat + 4) % 65536 := by
  rw [← ite_not]
  exact pc_toNat_of_exec_eq_skipIf h hc

/-- The table of R81, a case per ending: fault or jump, skip, hold, and `advance` after whatever else is written. -/
theorem exec_pc_toNat (i : Instr) (s : State) : ∃ t, exec i s = .next t ∧ t.pc.toNat = pcAfter s i := by
  cases i with
  | ret =>
    by_cases h : s.sp.val = 0
    · exact ⟨_, exec_ret_empty h, (if_pos h).symm⟩
    · exact ⟨_, exec_ret h, (pc_returned_toNat s).trans (if_neg h).symm⟩
  | call nnn =>
    by_cases h : s.sp.val = 15
    · exact ⟨_, exec_call_full nnn h, (if_pos h).symm⟩
    · exact ⟨_, exec_call nnn h, (zextAddr_toNat nnn).trans (if_neg h).symm⟩
  | jp nnn => exact ⟨_, rfl, zextAddr_toNat nnn⟩
  | jpV0 nnn => exact ⟨_, rfl, by simp [pcAfter, BitVec.toNat_add]⟩
  | seImm | seReg => exact pc_toNat_of_exec_eq_skipIf rfl beq_iff_eq
  | sneImm | sneReg => exact pc_toNat_of_exec_eq_skipIf_not rfl bne_iff_ne
  | skp => exact pc_toNat_of_exec_eq_skipIf rfl Iff.rfl
  | sknp => exact pc_toNat_of_exec_eq_skipIf_not rfl (by rw [Bool.not_eq_true', Bool.not_eq_true])
  | ldKey x =>
    cases h : s.lowestHeldKey with
    | none =>
      have hno := lowestHeldKey_eq_none.mp h
      exact ⟨_, exec_ldKey_of_no_key x hno, (if_neg (by simp [hno])).symm⟩
    | some k =>
      obtain ⟨hk, hlow⟩ := lowestHeldKey_eq_some.mp h
      exact ⟨_, exec_ldKey_of_lowest x hk hlow, (advance_pc_toNat rfl).trans (if_pos ⟨k, hk⟩).symm⟩
  | rnd => exact ⟨_, rfl, advance_pc_toNat (takeRand_pc s)⟩
  | ldBcd | storeRegs => exact ⟨_, rfl, advance_pc_toNat (memWriteList_pc s _ _)⟩
  | cls | ldImm | addImm | ldReg | orReg | andReg | xorReg | addReg | subReg | shr | subnReg | shl | ldI | drw | ldFromDt
  | ldDt | ldSt | addI | ldFont | loadRegs => exact ⟨_, rfl, advance_pc_toNat rfl⟩

/-- Settles O42: the state an instruction answers is the one whose PC is known. -/
theorem everyInstructionEndsPcAsListed : Obligations.EveryInstructionEndsPcAsListed := by
  intro i s t h
  obtain ⟨u, hu, hpc⟩ := exec_pc_toNat i s
  cases hu.symm.trans h
  exact hpc

/-! ### A step of a faulted machine -/

/-- Settles O8: the step command answers the same state, and with FAULT set its result is that fault. -/
theorem faultedStepChangesNothing : Obligations.FaultedStepChangesNothing := by
  intro s r h
  have hresult : stepResult s = .stepFault s.fault := stepResult_eq_stepFault.mpr ⟨h, rfl⟩
  exact ⟨step_faulted h, hresult ▸ stepCommand_faulted r h⟩

end Sys2Proof.Machine
end
